-- ==== Sys2Proof/Word.lean ====
section
/-! DEFINITION. The word types of the VarLenCodec unit: a value, a byte, and the eight byte lanes of a request buffer. -/

namespace Sys2Proof

/-- A value: an unsigned 64-bit integer (00 R8 `VALUE_BITS`, R11). -/
abbrev Word := BitVec 64

/-- A byte: an unsigned integer in `[0, 255]`, one lane of a buffer (00 R8 `BYTE_BITS`, R11). -/
abbrev Byte := BitVec 8

/-- The eight byte lanes of `req.buf` (10 R20, 20 R25), lane 0 first. -/
abbrev Lanes := Vector Byte 8

end Sys2Proof
end

