-- ==== Sys2Proof/Config.lean ====
section
/-! DEFINITION. The parameters of 00 R8 and R9. All are fixed by the spec: the unit has no open parameter (00 R10), so there
is no free value here. -/

namespace Sys2Proof.Config

/-- `MAX_LEN` (00 R8): an Encoding has 0 to 8 bytes (`MIN_LEN` is 0). -/
def maxLen : Nat := 8

/-- The number of length classes, lengths 0..8 (00 R8, `90_conflicts.md` C4). -/
def lengthClasses : Nat := maxLen + 1

/-- `OP_BITS` (00 R9): the width of `req.op`. -/
def opBits : Nat := 3

/-- `LEN_BITS` (00 R9): the width of `req.len` and `rsp.rlen`. -/
def lenBits : Nat := 4

/-- `CAP_BITS` (00 R9): the width of `req.cap`. -/
def capBits : Nat := 4

/-- `TXT_LANES` (00 R9): the lanes of `rsp.rtxt`, eight bytes of two digits and seven spaces. -/
def txtLanes : Nat := 23

/-- `TLEN_BITS` (00 R9): the width of `rsp.rtlen`. -/
def tlenBits : Nat := 5

/-- `STATUS_BITS` (00 R9): the width of `rsp.status`. -/
def statusBits : Nat := 2

end Sys2Proof.Config
end

