-- ==== Sys2Proof/Syntax.lean ====
section
/-! DEFINITION. A request as the ports carry it, and the five operations of `spec/opcode_table.json` with the operands each
of them reads. -/

namespace Sys2Proof

/-- One request: the five separate fields of format `REQ` (10 R20, 30 R49). There is no packed request word. -/
structure Request where
  /-- `req.op`: which operation (30 R50). -/
  op  : BitVec 3
  /-- `req.val`: operand of `ENC`, `TXT`, `APP`, `TRN`. -/
  val : Word
  /-- `req.buf[0..7]`: the Encoding (`DEC`) or the extra bytes (`APP`). -/
  buf : Lanes
  /-- `req.len`: the Encoding length (`DEC`), the extra-byte count (`APP`), the count of bytes to remove (`TRN`). -/
  len : BitVec 4
  /-- `req.cap`: the capacity of the requester's destination (`ENC`). -/
  cap : BitVec 4
  deriving DecidableEq, Repr

/-- One operation with the request fields it reads (10 R23); one constructor per row of the opcode table. Lengths and
capacities are plain numbers: they are only ever compared with 0..8 (30 R51; 00 R9 allows unbounded naturals). -/
inductive Instr where
  /-- `ENC` (40 R55): encode `val` into a destination of `cap` bytes. -/
  | enc (val : Word) (cap : Nat)
  /-- `DEC` (41 R61): decode lanes `buf[0..len-1]`. -/
  | dec (len : Nat) (buf : Lanes)
  /-- `TXT` (42 R68): hex text of the Encoding of `val`. -/
  | txt (val : Word)
  /-- `APP` (43 R73): append lanes `buf[0..len-1]` to the Encoding of `val`. -/
  | app (val : Word) (len : Nat) (buf : Lanes)
  /-- `TRN` (43 R78): drop the last `len` bytes of the Encoding of `val`. -/
  | trn (val : Word) (len : Nat)
  deriving DecidableEq, Repr

end Sys2Proof
end

