-- ==== Sys2Proof/WellFormed.lean ====
section
/-! DEFINITION. Which instructions a request can carry: the counts fit their 4-bit ports. -/

namespace Sys2Proof

/-- `n` fits `req.len` (00 R9 `LEN_BITS`). -/
def fitsLen (n : Nat) : Bool := n < 2 ^ Config.lenBits

/-- `n` fits `req.cap` (00 R9 `CAP_BITS`). -/
def fitsCap (n : Nat) : Bool := n < 2 ^ Config.capBits

/-- The instruction's counts fit the request's ports (10 R20). Every other operand fits by its type. -/
def Instr.wellFormed : Instr → Bool
  | .enc _ cap => fitsCap cap
  | .dec len _ => fitsLen len
  | .txt _ => true
  | .app _ len _ => fitsLen len
  | .trn _ len => fitsLen len

end Sys2Proof
end

