-- ==== Sys2Proof/Decode.lean ====
section
/-! DEFINITION. From a request's ports to an operation, and back. -/

namespace Sys2Proof

/-- Why a request selects no operation. -/
inductive DecodeError where
  /-- `req.op` in `{5, 6, 7}` (30 R52). -/
  | reservedOp (op : BitVec 3)
  deriving DecidableEq, Repr

/-- Operation select and operands (30 R50, R51; 10 R23). `val` is taken whole, `len` and `cap` as unsigned numbers, never
extended or scaled. A reserved code is rejected by name, before any test (30 R52, 60 R86). -/
def decode (r : Request) : Except DecodeError Instr :=
  match r.op with
  | 0 => .ok (.enc r.val r.cap.toNat)
  | 1 => .ok (.dec r.len.toNat r.buf)
  | 2 => .ok (.txt r.val)
  | 3 => .ok (.app r.val r.len.toNat r.buf)
  | 4 => .ok (.trn r.val r.len.toNat)
  | op => .error (.reservedOp op)

/-- A request with this operation code and every other field zero. -/
def Request.ofOp (op : BitVec 3) : Request where
  op := op
  val := 0
  buf := Vector.replicate 8 0
  len := 0
  cap := 0

/-- The ports of an operation (30 R50). DESIGN CHOICE (log 3): the fields it does not read are driven to zero; no
response depends on them (10 R23). -/
def encode : Instr → Request
  | .enc val cap => { Request.ofOp 0 with val := val, cap := BitVec.ofNat 4 cap }
  | .dec len buf => { Request.ofOp 1 with len := BitVec.ofNat 4 len, buf := buf }
  | .txt val => { Request.ofOp 2 with val := val }
  | .app val len buf => { Request.ofOp 3 with val := val, len := BitVec.ofNat 4 len, buf := buf }
  | .trn val len => { Request.ofOp 4 with val := val, len := BitVec.ofNat 4 len }

/-- The request an opcode-table word stands for. The table numbers the bits of `req.op` only (`mask` 0x7, the port is
bits 2:0); every other port is a separate field with no bit in the table and is zero. DESIGN CHOICE (log 2). -/
def tableRequest (nbits w : Nat) : Request :=
  Request.ofOp (BitVec.ofNat 3 (w % 2 ^ nbits))

/-- The instruction the decoder reads from an opcode-table word. -/
def decodeTableWord (nbits w : Nat) : Option Instr :=
  (decode (tableRequest nbits w)).toOption

end Sys2Proof
end

