-- ==== Sys2Proof/Machine/State.lean ====
section
/-! DEFINITION. What a response is, how a step can stop, and the machine's state: the requests still to be served and the
responses delivered. The unit itself holds no state between requests (10 R13). -/

namespace Sys2Proof.Machine

/-- The two error kinds (60 R83); no other failure mode exists. -/
inductive ErrorKind where
  /-- `BufferCapacityError`: the destination cannot hold the required byte count. -/
  | bufferCapacity
  /-- `InvalidEncodingError`: more than 8 bytes, a redundant 8-byte pattern, or a usage error of `APP` or `TRN` (D10). -/
  | invalidEncoding
  deriving DecidableEq, Repr

/-- The exact condition behind an error (60 R84). A cause is no response field: the requester sees only its kind. -/
inductive Cause where
  /-- `CAP_SHORT`: `ENC` with `cap < Len(val)`. -/
  | capShort
  /-- `LEN_OVER_8`: `DEC` with `len > 8`. -/
  | lenOver8
  /-- `REDUNDANT`: an 8-byte sequence whose 64-bit sum with `R(8)` wraps. -/
  | redundant
  /-- `APP_OVER_8`: `APP` with `Len(val) + len > 8`. -/
  | appOver8
  /-- `TRN_UNDER_0`: `TRN` with `len > Len(val)`. -/
  | trnUnder0
  deriving DecidableEq, Repr

/-- A response. Each outcome carries exactly its valid fields (10 R22): every other response field, and every lane past
the count, is unspecified and absent, so no claim can read it. A sequence's length is its count (`rlen`, `rtlen`). -/
inductive Response where
  /-- `ENC` answered `OK`: lanes `rbuf[0..rlen-1]`. -/
  | bytes (rbuf : List Byte)
  /-- `DEC`, `APP` or `TRN` answered `OK`: `rval`. -/
  | value (rval : Word)
  /-- `TXT` answered `OK`: lanes `rtxt[0..rtlen-1]`. -/
  | text (rtxt : List Byte)
  /-- An error: its kind and nothing else (60 R85). -/
  | error (kind : ErrorKind)
  deriving DecidableEq, Repr

/-- Faults that stop the machine: none. The spec's errors are delivered in a response and the machine goes on (60 R87, R89;
DEDUCED, log 8), so nothing raises a fault. Having none is safe: no request is left without the outcome the spec gives it. -/
inductive Fault where
  deriving DecidableEq, Repr

/-- Why a step has no next state. -/
inductive Refusal where
  /-- An instruction without a meaning; raised by no arm of this model. Safe: the machine stops. -/
  | notModelled (mnemonic : String)
  /-- Raised by `step` on a request whose `op` is reserved: no response is defined (30 R52). Safe: the machine stops. -/
  | reservedOp (op : BitVec 3)
  /-- Raised by `step` when no request is left: the run has ended (10 R15; DESIGN CHOICE, log 4). Safe: the machine stops. -/
  | noRequest
  deriving DecidableEq, Repr

/-- The unit's surroundings (DESIGN CHOICE, log 1): a program is a finite list of requests a host issues in order (10 R15),
and responses come back in that order (70 R106). -/
structure State where
  /-- The requests not yet served; the first is the one at the ports. -/
  requests : List Request
  /-- The responses delivered, oldest first. -/
  responses : List Response
  deriving DecidableEq, Repr

/-- After reset nothing exists (10 R24, 70 R97): no response has been delivered, and no request is waiting (DESIGN CHOICE,
log 1). -/
def State.reset : State where
  requests := []
  responses := []

end Sys2Proof.Machine
end

