-- ==== Sys2Proof/Machine/Flags.lean ====
section
/-! DEFINITION. The unit has no flags (10 R16): an operation's outcome is the `status` of its own response. This file holds
that status and the response ports as a requester reads them. -/

namespace Sys2Proof.Machine

/-- The kind a cause belongs to (60 R84). -/
def Cause.kind : Cause → ErrorKind
  | .capShort => .bufferCapacity
  | .lenOver8 => .invalidEncoding
  | .redundant => .invalidEncoding
  | .appOver8 => .invalidEncoding
  | .trnUnder0 => .invalidEncoding

/-- The status code of an error kind (60 R83). -/
def ErrorKind.status : ErrorKind → BitVec 2
  | .bufferCapacity => 1
  | .invalidEncoding => 2

/-- `rsp.status` (10 R21): 0 `OK`, else the kind's code. -/
def Response.status : Response → BitVec 2
  | .bytes _ => 0
  | .value _ => 0
  | .text _ => 0
  | .error kind => kind.status

/-- `rsp.rval`, where 10 R22 makes it valid. -/
def Response.rval : Response → Option Word
  | .value rval => some rval
  | .bytes _ => none
  | .text _ => none
  | .error _ => none

/-- `rsp.rlen`, where 10 R22 makes it valid: the count of bytes written (20 R31). -/
def Response.rlen : Response → Option Nat
  | .bytes rbuf => some rbuf.length
  | .value _ => none
  | .text _ => none
  | .error _ => none

/-- `rsp.rbuf[i]`, where 10 R22 makes it valid: lanes `0..rlen-1` only. -/
def Response.rbuf (r : Response) (i : Nat) : Option Byte :=
  match r with
  | .bytes rbuf => rbuf[i]?
  | .value _ => none
  | .text _ => none
  | .error _ => none

/-- `rsp.rtlen`, where 10 R22 makes it valid: the number of characters written (20 R31). -/
def Response.rtlen : Response → Option Nat
  | .text rtxt => some rtxt.length
  | .bytes _ => none
  | .value _ => none
  | .error _ => none

/-- `rsp.rtxt[i]`, where 10 R22 makes it valid: lanes `0..rtlen-1` only. -/
def Response.rtxt (r : Response) (i : Nat) : Option Byte :=
  match r with
  | .text rtxt => rtxt[i]?
  | .bytes _ => none
  | .value _ => none
  | .error _ => none

end Sys2Proof.Machine
end

