-- ==== Sys2Proof/Machine/Band.lean ====
section
/-! DEFINITION. The band constants and the band lookup (30 §1, §2). -/

namespace Sys2Proof.Machine

/-- `add64(a, b) = (a + b) mod 2^64` (00 R12). -/
def add64 (a b : Word) : Word := a + b

/-- `sub64(a, b) = (a - b) mod 2^64` (00 R12). -/
def sub64 (a b : Word) : Word := a - b

/-- The band constant `R(n) = (256^n - 1)/255`, for `n = 0..8` (30 R38). -/
def R (n : Nat) : Word := BitVec.ofNat 64 ((256 ^ n - 1) / 255)

/-- `Len(v)`: the table of 30 R39, tested top to bottom, first match wins (30 R40). -/
def lenOf (v : Word) : Nat :=
  if v = 0 then 0
  else if v < R 2 then 1
  else if v < R 3 then 2
  else if v < R 4 then 3
  else if v < R 5 then 4
  else if v < R 6 then 5
  else if v < R 7 then 6
  else if v < R 8 then 7
  else 8

/-- `Stored(v) = sub64(v, R(Len(v)))` (30 R41). -/
def stored (v : Word) : Word := sub64 v (R (lenOf v))

end Sys2Proof.Machine
end

