-- ==== Sys2Proof/Machine/Format.lean ====
section
/-! DEFINITION. The Encoding format: from a value to bytes and from bytes to a value (30 §2, §3). -/

namespace Sys2Proof.Machine

/-- Base-256 digit `i` of `x`, that is `x[8i+7:8i]` (00 R11). -/
def byteAt (x : Word) (i : Nat) : Byte := x.extractLsb' (8 * i) 8

/-- `EncBytes(v)`: `Len(v)` bytes, byte `i` being `Stored(v)[8i+7:8i]`; little-endian (30 R42, 20 R28). -/
def encBytes (v : Word) : List Byte :=
  (List.range (lenOf v)).map (byteAt (stored v))

/-- `Sum(s) = Σ s[i] × 256^i`, a mathematical integer (30 R43). -/
def byteSum : List Byte → Nat
  | [] => 0
  | b :: s => b.toNat + 256 * byteSum s

/-- `DecValue(s)`: `R(n) + Sum(s)` in 64 bits; more than 8 bytes is an error, and so is an 8-byte sequence whose sum wraps,
which the test `t < R(8)` detects (30 R44, 41 R64). The test is never a comparison with a literal pattern (C1, C8). -/
def decValue (s : List Byte) : Except Cause Word :=
  let n := s.length
  if n > Config.maxLen then .error .lenOver8
  else
    let t := add64 (R n) (BitVec.ofNat 64 (byteSum s))
    if n = 8 ∧ t < R 8 then .error .redundant else .ok t

end Sys2Proof.Machine
end

