-- ==== Sys2Proof/Machine/Operands.lean ====
section
/-! DEFINITION. How an operation reads its operands. `val`, `len` and `cap` are used as they stand (30 R51); the one operand
form with content is a count of byte lanes. -/

namespace Sys2Proof.Machine

/-- Lanes `buf[0..n-1]`, in lane order (20 R25, R31). Lanes at index `n` and above are not read (41 R63). -/
def readLanes (buf : Lanes) (n : Nat) : List Byte :=
  buf.toList.take n

end Sys2Proof.Machine
end

