-- ==== Sys2Proof/Machine/Ops.lean ====
section
/-! DEFINITION. The operations every meaning shares: delivering a response, and raising an error. -/

namespace Sys2Proof.Machine

/-- The state with one more response, after the earlier ones (70 R106); nothing else changes (20 R33). -/
def State.answer (s : State) (r : Response) : State :=
  { s with responses := s.responses ++ [r] }

/-- Deliver the response to the request being served. -/
def deliver (r : Response) (s : State) : Host.Outcome State Fault Refusal :=
  .next (s.answer r)

/-- `raise Kind(CAUSE)`, the one way to take an error (60 R87, R88): the response carries the kind and no other field,
nothing else is written, nothing is saved and control goes nowhere. There is no return from an error (60 R89). -/
def raise (c : Cause) (s : State) : Host.Outcome State Fault Refusal :=
  deliver (.error c.kind) s

/-- Answer with the value of a decode, or raise its error. -/
def answerValue (d : Except Cause Word) (s : State) : Host.Outcome State Fault Refusal :=
  match d with
  | .ok t => deliver (.value t) s
  | .error c => raise c s

end Sys2Proof.Machine
end

