-- ==== Sys2Proof/Machine/Decoder.lean ====
section
/-! DEFINITION. `DEC`, the decoder (41). -/

namespace Sys2Proof.Machine

/-- `DEC` (41 R61): a length above 8 is an error and no lane is read (41 R66); otherwise `DecValue` of the first `len` lanes.
The length is trusted (41 R62). -/
def execDec (len : Nat) (buf : Lanes) (s : State) : Host.Outcome State Fault Refusal :=
  if len > Config.maxLen then raise .lenOver8 s
  else answerValue (decValue (readLanes buf len)) s

end Sys2Proof.Machine
end

