-- ==== Sys2Proof/Machine/Edit.lean ====
section
/-! DEFINITION. `APP` and `TRN`, byte-level append and truncate (43). Both encode, edit the bytes, and decode at the new
length; the internal encode has no destination, so neither has a capacity error (43 R76). -/

namespace Sys2Proof.Machine

/-- `APP` (43 R73): more than 8 bytes in all is an error and no lane is read (43 R74); the decode may find a redundant
pattern (43 R77). -/
def execApp (val : Word) (len : Nat) (buf : Lanes) (s : State) : Host.Outcome State Fault Refusal :=
  let e := encBytes val
  if e.length + len > Config.maxLen then raise .appOver8 s
  else answerValue (decValue (e ++ readLanes buf len)) s

/-- `TRN` (43 R78): removing more bytes than there are is an error (43 R79); the last `len` bytes, at the highest lanes, are
dropped. -/
def execTrn (val : Word) (len : Nat) (s : State) : Host.Outcome State Fault Refusal :=
  let e := encBytes val
  if len > e.length then raise .trnUnder0 s
  else answerValue (decValue (e.take (e.length - len))) s

end Sys2Proof.Machine
end

