-- ==== Sys2Proof/Machine/Encoder.lean ====
section
/-! DEFINITION. `ENC`, the encoder (40). -/

namespace Sys2Proof.Machine

/-- `ENC` (40 R55): the capacity check precedes every write (40 R56); then exactly `Len(val)` lanes are written. -/
def execEnc (val : Word) (cap : Nat) (s : State) : Host.Outcome State Fault Refusal :=
  if cap < lenOf val then raise .capShort s
  else deliver (.bytes (encBytes val)) s

end Sys2Proof.Machine
end

