-- ==== Sys2Proof/Machine/Text.lean ====
section
/-! DEFINITION. `TXT`, the textual debug representation (42). -/

namespace Sys2Proof.Machine

/-- `SPACE`, the ASCII code 0x20 (42 R69). -/
def space : Byte := 0x20

/-- `HEXDIGIT(d)`: the ASCII code of an upper-case hexadecimal digit (42 R69; `93_implementation_defined.md` G1). -/
def hexDigit (d : BitVec 4) : Byte :=
  if d < 10 then 0x30 + d.setWidth 8 else 0x41 + (d.setWidth 8 - 10)

/-- A byte as exactly two digits, high nibble first (42 R70). -/
def hexPair (b : Byte) : List Byte :=
  [hexDigit (b.extractLsb' 4 4), hexDigit (b.extractLsb' 0 4)]

/-- Bytes in lane order, exactly one space between consecutive bytes, nothing around them (42 R68, R71). -/
def hexText (s : List Byte) : List Byte :=
  [space].intercalate (s.map hexPair)

/-- `TXT` (42 R68): always `OK`. -/
def execTxt (val : Word) (s : State) : Host.Outcome State Fault Refusal :=
  deliver (.text (hexText (encBytes val))) s

end Sys2Proof.Machine
end

