-- ==== Sys2Proof/Machine/Dispatch.lean ====
section
/-! DEFINITION. One arm per operation of the opcode table. -/

namespace Sys2Proof.Machine

-- The meaning of an operation (30 R50).
def exec (i : Instr) (s : State) : Host.Outcome State Fault Refusal :=
  match i with
  | .enc val cap => Sys2Proof.Machine.execEnc val cap s
  | .dec len buf => Sys2Proof.Machine.execDec len buf s
  | .txt val => Sys2Proof.Machine.execTxt val s
  | .app val len buf => Sys2Proof.Machine.execApp val len buf s
  | .trn val len => Sys2Proof.Machine.execTrn val len s

end Sys2Proof.Machine
end

