-- ==== Sys2Proof/Machine/Step.lean ====
section
/-! DEFINITION. One step: one request is taken from the front of the host's list and served (70 R106). -/

namespace Sys2Proof.Machine

/-- Serve the first request. With no request left the run has ended (10 R15); a reserved operation code is refused before
any test (30 R52, 60 R86). -/
def step (s : State) : Host.Outcome State Fault Refusal :=
  match s.requests with
  | [] => .refused .noRequest
  | r :: rest =>
    match decode r with
    | .ok i => exec i { s with requests := rest }
    | .error (.reservedOp op) => .refused (.reservedOp op)

/-- The state whose next request is the one an opcode-table word stands for, ahead of those already waiting (log 2). -/
def State.withFetchWord (s : State) (nbits w : Nat) : State :=
  { s with requests := tableRequest nbits w :: s.requests }

end Sys2Proof.Machine
end

