-- ==== Sys2Proof/Machine/Listing.lean ====
section
/-! DEFINITION. The one-line written form of a request and of a response (30 R54). It is a way to write tests and programs
down; no meaning reads it. Bytes are two upper-case hexadecimal digits, lane 0 first; numbers are decimal. -/

namespace Sys2Proof.Machine

/-- Character codes as text (42 R69). -/
def charsOf (codes : List Byte) : List Char := codes.map fun c => Char.ofNat c.toNat

/-- A byte list in brackets. -/
def bytesListing (s : List Byte) : List Char := ['['] ++ charsOf (hexText s) ++ [']']

/-- A number in decimal. -/
def numberListing (n : Nat) : List Char := Nat.toDigits 10 n

/-- An operation as one line, without the response. Only lanes the operation can read are written. -/
def instrListing : Instr → List Char
  | .enc val cap => "ENC val=".toList ++ numberListing val.toNat ++ " cap=".toList ++ numberListing cap
  | .dec len buf => "DEC len=".toList ++ numberListing len ++ " buf=".toList ++ bytesListing (readLanes buf len)
  | .txt val => "TXT val=".toList ++ numberListing val.toNat
  | .app val len buf => "APP val=".toList ++ numberListing val.toNat ++ " len=".toList ++ numberListing len ++
      " buf=".toList ++ bytesListing (readLanes buf len)
  | .trn val len => "TRN val=".toList ++ numberListing val.toNat ++ " len=".toList ++ numberListing len

/-- A response as it stands after `=>`. -/
def Response.listing : Response → List Char
  | .bytes rbuf => "OK rlen=".toList ++ numberListing rbuf.length ++ " rbuf=".toList ++ bytesListing rbuf
  | .value rval => "OK rval=".toList ++ numberListing rval.toNat
  | .text rtxt => "OK rtlen=".toList ++ numberListing rtxt.length ++ " rtxt=\"".toList ++ charsOf rtxt ++ ['"']
  | .error .bufferCapacity => "BufferCapacityError".toList
  | .error .invalidEncoding => "InvalidEncodingError".toList

end Sys2Proof.Machine
end

