-- ==== Sys2Proof/Safety.lean ====
section
/-! DEFINITION. What counts as a response the unit may give, the invariant of a run, the programs the spec gives a meaning
to, and the spec's own arithmetic (length classes, digits, weighted sums) on plain numbers, in the terms the claims use. -/

namespace Sys2Proof.Machine

/-- `v` lies in length class `n`: `[R(n), R(n+1))` for `n = 0..7`, `[R(8), 2^64 - 1]` for `n = 8` (30 R39), the constants
being those of the formula of 30 R38. -/
abbrev InClass (v : Word) (n : Nat) : Prop :=
  n ≤ 8 ∧ (256 ^ n - 1) / 255 ≤ v.toNat ∧ (n < 8 → v.toNat < (256 ^ (n + 1) - 1) / 255)

/-- The `n` base-256 digits of `x`, least significant first (00 R11, 20 R28). -/
def digitBytes (x n : Nat) : List Byte :=
  (List.range n).map fun i => BitVec.ofNat 8 (x / 256 ^ i % 256)

/-- `Σ buf[i] × 256^i for i in 0..n-1` (20 R28, 30 R43), for `n ≤ 8`. -/
def laneSum (buf : Lanes) (n : Nat) : Nat :=
  ∑ i ∈ Finset.range n, (buf.toList.getD i 0).toNat * 256 ^ i

/-- The characters `0`..`9` and `A`..`F` by digit (42 R69). -/
def digitCodes : List Byte :=
  [0x30, 0x31, 0x32, 0x33, 0x34, 0x35, 0x36, 0x37, 0x38, 0x39, 0x41, 0x42, 0x43, 0x44, 0x45, 0x46]

/-- A response the unit may give: an Encoding fits the 8 lanes (10 R21) and is never redundant (40 R57); a text fits its 23
lanes, is empty or two digits a byte, with a space in every third lane and digits elsewhere (42 R68, R70, R71). -/
def Response.Legal : Response → Prop
  | .bytes b => b.length ≤ 8 ∧ (b.length = 8 → byteSum b ≤ 0xFEFE_FEFE_FEFE_FEFE)
  | .value _ => True
  | .text t => t.length ≤ Config.txtLanes ∧ (t = [] ∨ t.length % 3 = 2) ∧
      ∀ i c, t[i]? = some c → if i % 3 = 2 then c = 0x20 else c ∈ digitCodes
  | .error _ => True

/-- The invariant of a run: every response delivered so far is legal. -/
def State.Inv (s : State) : Prop := ∀ r ∈ s.responses, r.Legal

/-- A request that selects an operation (30 R50); the others are refused and a claim about a list with one in it says
nothing (30 R52). -/
abbrev Accepted (r : Request) : Prop := r.op.toNat < 5

/-- `n` steps of the machine from `s`, stopping where a step does not go on. -/
def runFor : Nat → State → Host.Outcome State Fault Refusal
  | 0, s => .next s
  | n + 1, s =>
    match step s with
    | .next t => runFor n t
    | .fault f => .fault f
    | .refused e => .refused e

end Sys2Proof.Machine
end

