-- ==== Sys2Proof/Certificates/Slice0/Obligations.lean ====
section
/-! DEFINITION. The statements about the model, each after a rule of the spec. `⟨requests, responses⟩` is a state and
`s.answer r` is `s` with the response `r` delivered and nothing else changed. A file and rule of the
spec are cited as in the definitions (30 R38 is rule R38 of `30_encoding.md`). -/

open Sys2Proof Sys2Proof.Machine

/-! ### The bands (30 §1, §2) -/

/-- 30 §1: each `R(n)` is exactly `(256^n - 1)/255` and fits 64 bits, its base-256 digits are `n` ones, the table of the nine
constants holds, and `R(n+1) = R(n) + 256^n = 256·R(n) + 1`. The spec marks `R(4)`..`R(7)` and the two identities
"[derived: from the formula in this rule]". -/
def Obligations.BandConstantsFollowTheFormula : Prop :=
  (∀ n ≤ 8, 255 * (R n).toNat = 256 ^ n - 1 ∧ Nat.digits 256 (R n).toNat = List.replicate n 1) ∧
  (∀ n < 8, (R (n + 1)).toNat = (R n).toNat + 256 ^ n ∧ (R (n + 1)).toNat = 256 * (R n).toNat + 1) ∧
  (List.range 9).map R = [0x0, 0x01, 0x0101, 0x010101, 0x01010101, 0x0101010101, 0x010101010101, 0x01010101010101,
    0x0101010101010101]

/-- 30 §2: `Len(v)` is the class `v` lies in, the greatest `n` with `R(n) ≤ v`, and the number of the eight comparisons of
`v` with `R(1)..R(8)` that hold; it does not decrease. The spec marks the "equivalently" form "[derived: from
rule R39]". -/
def Obligations.BandLookupIsTheClassOfTheValue : Prop :=
  (∀ v n, lenOf v = n ↔ InClass v n) ∧
  (∀ v, R (lenOf v) ≤ v ∧ ∀ n ≤ 8, R n ≤ v → n ≤ lenOf v) ∧
  (∀ v, lenOf v = ((List.range 8).filter fun i => decide (R (i + 1) ≤ v)).length) ∧
  (∀ v w : Word, v ≤ w → lenOf v ≤ lenOf w)

/-- 30 R41: `Stored(v)` is the 64-bit difference, which never borrows; it takes exactly the values `0..256^n - 1` on a class
`n ≤ 7`, exactly `0..0xFEFE_FEFE_FEFE_FEFE` on class 8, and on class 0 it is 0 and no byte is produced. -/
def Obligations.StoredValueFillsItsClass : Prop :=
  (∀ v, R (lenOf v) ≤ v ∧ stored v = sub64 v (R (lenOf v)) ∧ (stored v).toNat = v.toNat - (R (lenOf v)).toNat) ∧
  (∀ n ≤ 7, ∀ x, (∃ v, lenOf v = n ∧ (stored v).toNat = x) ↔ x ≤ 256 ^ n - 1) ∧
  (∀ x, (∃ v, lenOf v = 8 ∧ (stored v).toNat = x) ↔ x ≤ 0xFEFE_FEFE_FEFE_FEFE) ∧
  (∀ v, lenOf v = 0 → stored v = 0 ∧ encBytes v = [])

/-- 30 R43: `Sum` of at most 8 bytes is `Σ s[i] × 256^i`, an exact number in `[0, 256^n - 1]` that fits 64 bits, 0 for no
byte; read from lanes, those at index `n` and above do not enter. -/
def Obligations.SumWeighsEachByteByItsPower : Prop :=
  (∀ s : List Byte, s.length ≤ 8 →
    byteSum s = ∑ i : Fin s.length, s[i].toNat * 256 ^ i.val ∧ byteSum s ≤ 256 ^ s.length - 1 ∧ byteSum s < 2 ^ 64) ∧
  byteSum [] = 0 ∧
  (∀ (buf : Lanes) (n : Nat), n ≤ 8 → byteSum (readLanes buf n) = laneSum buf n)

/-- 30 R45: (a) every value has exactly one byte sequence of length 0..8 that decodes to it, its Encoding; (b), (c) at each
length decoding is a bijection, inverse to encoding, from all sequences (at length 8, from those with
`Sum ≤ 0xFEFE_FEFE_FEFE_FEFE`, the only ones that decode) onto the class; (d) the classes are disjoint and cover the value
space, and every pattern below length 8 is used; (e) sequences of different lengths decode to different values, and so do the
same bytes read at two lengths. -/
def Obligations.EncodingIsABijection : Prop :=
  (∀ v, decValue (encBytes v) = .ok v ∧ ∀ s, decValue s = .ok v → s = encBytes v) ∧
  (∀ s : List Byte, s.length ≤ 7 → ∃ v, InClass v s.length ∧ decValue s = .ok v ∧ encBytes v = s) ∧
  (∀ s : List Byte, s.length = 8 →
    ((∃ v, decValue s = .ok v) ↔ byteSum s ≤ 0xFEFE_FEFE_FEFE_FEFE) ∧
    ∀ v, decValue s = .ok v → InClass v 8 ∧ encBytes v = s) ∧
  (∀ v n, InClass v n → ∃ s : List Byte, s.length = n ∧ decValue s = .ok v) ∧
  (∀ s t v, decValue s = .ok v → decValue t = .ok v → s = t) ∧
  (∀ v, ∃! n, InClass v n) ∧
  (∀ (s : List Byte) m n v w, m ≤ s.length → n ≤ s.length → m ≠ n →
    decValue (s.take m) = .ok v → decValue (s.take n) = .ok w → v ≠ w)

/-! ### ENC (40) -/

/-- 30 R42: the Encoding of a value of class `n` is the `n` base-256 digits of `v - R(n)`, least significant first, empty for
0; `ENC` completes with exactly those bytes whenever the capacity is at least `n`, and nothing else changes. -/
def Obligations.EncAnswersTheDigitsOfTheStoredValue : Prop :=
  ∀ (v : Word) (n cap : Nat) (s : State), InClass v n → n ≤ cap →
    encBytes v = digitBytes (v.toNat - (256 ^ n - 1) / 255) n ∧ (v = 0 → encBytes v = []) ∧
    exec (.enc v cap) s =
      .next (s.answer (.bytes (digitBytes (v.toNat - (256 ^ n - 1) / 255) n)))

/-- 40, the capacity check: below `Len(v)` the error is `BufferCapacityError` and nothing is written; at `Len(v)` or above
the answer is that of capacity 8, which never fails. That the required length is not reported rests on the spec's decision
D8. -/
def Obligations.EncShortCapacityWritesNothing : Prop :=
  ∀ (v : Word) (n cap : Nat) (s : State), InClass v n →
    (cap < n → exec (.enc v cap) s = .next (s.answer (.error .bufferCapacity))) ∧
    (n ≤ cap → exec (.enc v cap) s = exec (.enc v 8) s ∧
      ∃ b, exec (.enc v 8) s = .next (s.answer (.bytes b)))

/-- 40 R57: `ENC` never produces a redundant pattern; at length 8 its bytes spell `v - R(8)`. -/
def Obligations.EncNeverProducesARedundantPattern : Prop :=
  ∀ (v : Word) (cap : Nat) (s t : State) (b : List Byte),
    exec (.enc v cap) s = .next t → t.responses = s.responses ++ [.bytes b] → b.length = 8 →
    byteSum b = v.toNat - (R 8).toNat ∧ byteSum b ≤ 0xFEFE_FEFE_FEFE_FEFE

/-- 40 R58: the length `ENC` reports is `Len(val)`, a function of `val` alone that does not decrease, takes every value 0..8,
and steps from `n - 1` to `n` exactly between `R(n) - 1` and `R(n)`. -/
def Obligations.EncLengthLaw : Prop :=
  (∀ (v : Word) (cap : Nat) (s t : State) (b : List Byte),
    exec (.enc v cap) s = .next t → t.responses = s.responses ++ [.bytes b] → b.length = lenOf v) ∧
  (∀ v w : Word, v ≤ w → lenOf v ≤ lenOf w) ∧
  (∀ n, (∃ v, lenOf v = n) ↔ n ≤ 8) ∧
  (∀ n, 1 ≤ n → n ≤ 8 → lenOf (R n - 1) = n - 1 ∧ lenOf (R n) = n)

/-- 40 R59: whatever the other fields hold, an `ENC` request of `v` with capacity 8, then a `DEC` request of the bytes it
answered at the length it answered, answer those bytes and then `v`; for `2^64 - 1` the bytes are `FE`×8. -/
def Obligations.EncodeThenDecodeGivesTheValueBack : Prop :=
  (∀ (v : Word) (e d : Request) (out : List Response), e.op = 0 → e.val = v → e.cap = 8 →
    ∃ b, runFor 1 ⟨[e], out⟩ = .next (State.answer ⟨[], out⟩ (.bytes b)) ∧
      (d.op = 1 → d.len.toNat = b.length → d.buf.toList.take b.length = b →
        runFor 2 ⟨[e, d], out⟩ = .next (((State.mk [] out).answer (.bytes b)).answer (.value v)))) ∧
  (∀ s, exec (.enc 0xFFFF_FFFF_FFFF_FFFF 8) s = .next (s.answer (.bytes (List.replicate 8 0xFE))))

/-- 40 R60: at each length `n ≤ 7` every one of the `256^n` byte patterns is answered by `ENC` for exactly one value of class
`n`; at length 8 exactly the patterns with `Sum ≤ 0xFEFE_FEFE_FEFE_FEFE` are, each for exactly one value. -/
def Obligations.EncLengthsAreDense : Prop :=
  (∀ b : List Byte, b.length ≤ 7 → ∃! v, InClass v b.length ∧
    ∀ s, exec (.enc v 8) s = .next (s.answer (.bytes b))) ∧
  (∀ b : List Byte, b.length = 8 →
    ((∃ v, InClass v 8 ∧ ∀ s, exec (.enc v 8) s = .next (s.answer (.bytes b))) ↔
      byteSum b ≤ 0xFEFE_FEFE_FEFE_FEFE) ∧
    ∀ v w s, exec (.enc v 8) s = .next (s.answer (.bytes b)) →
      exec (.enc w 8) s = .next (s.answer (.bytes b)) → v = w)

/-! ### DEC (41) -/

/-- 41 R65: for `n` in 0..7 `DEC` always answers `OK`, with `R(n) + Σ buf[i] × 256^i`, a value of class `n`; nothing else
changes. -/
def Obligations.DecBelowEightBytesAlwaysAnswers : Prop :=
  ∀ (n : Nat) (buf : Lanes) (s : State), n ≤ 7 →
    ∃ w : Word, exec (.dec n buf) s = .next (s.answer (.value w)) ∧
      w.toNat = (256 ^ n - 1) / 255 + laneSum buf n ∧
      (R n).toNat ≤ w.toNat ∧ w.toNat ≤ (R (n + 1)).toNat - 1 ∧ lenOf w = n

/-- 41, the redundancy test: at length 8 `DEC` adds in 64 bits, answers the sum `t` when it is not below `R(8)` and raises
`InvalidEncodingError` when it is; the test fails exactly for `Sum > 0xFEFE_FEFE_FEFE_FEFE`, and then the sum had wrapped.
The equivalence is marked "[derived: from 30_encoding.md rule R44]" by the spec. -/
def Obligations.DecEightBytesIsWrapChecked : Prop :=
  ∀ (buf : Lanes) (s : State), ∃ t : Word, t.toNat = ((R 8).toNat + laneSum buf 8) % 2 ^ 64 ∧
    (t < R 8 ↔ laneSum buf 8 > 0xFEFE_FEFE_FEFE_FEFE) ∧
    (¬ t < R 8 → exec (.dec 8 buf) s = .next (s.answer (.value t)) ∧
      t.toNat = (R 8).toNat + laneSum buf 8) ∧
    (t < R 8 → exec (.dec 8 buf) s = .next (s.answer (.error .invalidEncoding)))

/-- 41 and 30, illegal data: `DEC` fails for exactly two classes of input, a length above 8 and an 8-byte pattern with
`Sum` of `0xFEFE_FEFE_FEFE_FEFF` or more, and answers a value for every other. There are `R(8)` such sums, the least of
them that of `FF FE FE FE FE FE FE FE` and the greatest that of `FF`×8. The spec marks that count "[derived: …]". -/
def Obligations.DecFailsForExactlyTwoClassesOfInput : Prop :=
  (∀ (n : Nat) (buf : Lanes) (s : State),
    (exec (.dec n buf) s = .next (s.answer (.error .invalidEncoding)) ↔
      8 < n ∨ (n = 8 ∧ 0xFEFE_FEFE_FEFE_FEFF ≤ laneSum buf 8)) ∧
    (¬ (8 < n ∨ (n = 8 ∧ 0xFEFE_FEFE_FEFE_FEFF ≤ laneSum buf 8)) → ∃ w, exec (.dec n buf) s = .next (s.answer (.value w)))) ∧
  (Finset.Icc 0xFEFE_FEFE_FEFE_FEFF (2 ^ 64 - 1)).card = (R 8).toNat ∧
  laneSum #v[0xFF, 0xFE, 0xFE, 0xFE, 0xFE, 0xFE, 0xFE, 0xFE] 8 = 0xFEFE_FEFE_FEFE_FEFF ∧
  (∀ buf, laneSum buf 8 ≤ 2 ^ 64 - 1) ∧ laneSum (Vector.replicate 8 0xFF) 8 = 2 ^ 64 - 1

/-- 41 R66: a length above 8 always raises `InvalidEncodingError`, and no lane is read: two buffers make no difference. -/
def Obligations.DecOverEightBytesIsAnError : Prop :=
  ∀ (r : Request) (rest : List Request) (out : List Response) (buf : Lanes), r.op = 1 → 8 < r.len.toNat →
    step ⟨r :: rest, out⟩ = .next (State.answer ⟨rest, out⟩ (.error .invalidEncoding)) ∧
    step ⟨{ r with buf := buf } :: rest, out⟩ = step ⟨r :: rest, out⟩

/-- 41, `DEC` against `ENC` (the spec marks it "[derived: from 30_encoding.md rule R45]"): whenever `DEC` answers a value,
`ENC` of that value answers the bytes decoded, at the length decoded. -/
def Obligations.DecThenEncGivesTheBytesBack : Prop :=
  ∀ (n : Nat) (buf : Lanes) (w : Word) (s : State),
    exec (.dec n buf) s = .next (s.answer (.value w)) →
    exec (.enc w 8) s = .next (s.answer (.bytes (buf.toList.take n))) ∧
      (buf.toList.take n).length = n

/-- 70, a wrong length (marked "[derived: from `41_decode.md` rules R61, R62, R63]" by the spec): bytes made at length `n`
and read at another length `m` never give the original value, whatever the other lanes hold; they give a value of class
`m`, or, only at `m = 8`, an error. -/
def Obligations.WrongLengthGivesAnotherValue : Prop :=
  ∀ (v : Word) (n m : Nat) (buf : Lanes) (s : State), InClass v n → buf.toList.take n = encBytes v → m ≤ 8 → m ≠ n →
    (∃ w, exec (.dec m buf) s = .next (s.answer (.value w)) ∧ InClass w m ∧ w ≠ v) ∨
    (m = 8 ∧ exec (.dec m buf) s = .next (s.answer (.error .invalidEncoding)))

/-! ### TXT (42) -/

/-- 42: `TXT` always answers `OK`, with `3n - 1` characters for a value of class `n` (none for 0): byte `i` of the
Encoding as two upper-case digits, high nibble first, at lanes `3i` and `3i + 1`, and one space after every byte but the
last. The character codes and the two-digit form rest on the spec's decision D12. -/
def Obligations.TxtLaysOutTheHexDigits : Prop :=
  ∀ (v : Word) (n : Nat) (s : State), InClass v n →
    ∃ t : List Byte, exec (.txt v) s = .next (s.answer (.text t)) ∧
      t.length = (if n = 0 then 0 else 3 * n - 1) ∧
      ∀ i < n,
        t[3 * i]? = digitCodes[(v.toNat - (256 ^ n - 1) / 255) / 256 ^ i % 256 / 16]? ∧
        t[3 * i + 1]? = digitCodes[(v.toNat - (256 ^ n - 1) / 255) / 256 ^ i % 256 % 16]? ∧
        (i + 1 < n → t[3 * i + 2]? = some 0x20)

/-- 42 (injectivity is marked "[derived: …]" by the spec): different values give different texts. -/
def Obligations.TxtIsInjective : Prop :=
  ∀ (v w : Word) (s : State), exec (.txt v) s = exec (.txt w) s → v = w

/-! ### APP and TRN (43) -/

/-- 43, the meaning of `APP` (the error kind past 8 bytes rests on the spec's decision D10): an `APP` request of a value
with Encoding length `L` and `k` extra bytes raises `InvalidEncodingError` when `L + k > 8`, whatever the lanes hold;
otherwise it answers exactly what a `DEC` request of the concatenated bytes at length `L + k` answers, which is an
`InvalidEncodingError` only at length 8 and otherwise a value. With `k = 0` it returns `val`, and `val = 0` makes it the
`DEC` of its own lanes. -/
def Obligations.AppDecodesTheConcatenation : Prop :=
  ∀ (r d : Request) (rest : List Request) (out : List Response), r.op = 3 →
    (lenOf r.val + r.len.toNat > 8 → ∀ buf,
      step ⟨{ r with buf := buf } :: rest, out⟩ = .next (State.answer ⟨rest, out⟩ (.error .invalidEncoding))) ∧
    (lenOf r.val + r.len.toNat ≤ 8 →
      (d.op = 1 → d.len.toNat = lenOf r.val + r.len.toNat →
        d.buf.toList.take d.len.toNat = encBytes r.val ++ r.buf.toList.take r.len.toNat →
        step ⟨r :: rest, out⟩ = step ⟨d :: rest, out⟩) ∧
      ((∃ w, decValue (encBytes r.val ++ r.buf.toList.take r.len.toNat) = .ok w ∧
          step ⟨r :: rest, out⟩ = .next (State.answer ⟨rest, out⟩ (.value w))) ∨
        (lenOf r.val + r.len.toNat = 8 ∧
          decValue (encBytes r.val ++ r.buf.toList.take r.len.toNat) = .error .redundant ∧
          step ⟨r :: rest, out⟩ = .next (State.answer ⟨rest, out⟩ (.error .invalidEncoding))))) ∧
    (r.len = 0 → step ⟨r :: rest, out⟩ = .next (State.answer ⟨rest, out⟩ (.value r.val))) ∧
    (r.val = 0 → step ⟨r :: rest, out⟩ = step ⟨{ r with op := 1 } :: rest, out⟩)

/-- 43, the closed form of `APP` (marked "[derived: …]" by the spec): with `L + k ≤ 8`, `APP` completes with
`R(L+k) + (v - R(L)) + 256^L · Sum(buf[0..k-1])` when that number is below `2^64` (always so for `L + k ≤ 7`), a value of
class `L + k`, and raises exactly when it is not. -/
def Obligations.AppClosedForm : Prop :=
  ∀ (v : Word) (n k : Nat) (buf : Lanes) (s : State), InClass v n → n + k ≤ 8 →
    let x := (256 ^ (n + k) - 1) / 255 + (v.toNat - (256 ^ n - 1) / 255) + 256 ^ n * laneSum buf k
    (n + k ≤ 7 → x < 2 ^ 64) ∧
    (x < 2 ^ 64 → InClass (BitVec.ofNat 64 x) (n + k) ∧
      exec (.app v k buf) s = .next (s.answer (.value (BitVec.ofNat 64 x)))) ∧
    (2 ^ 64 ≤ x → exec (.app v k buf) s = .next (s.answer (.error .invalidEncoding)))

/-- 43, the length checks (the error kind rests on the spec's decision D10): `APP` past 8 bytes and `TRN` below 0 bytes raise
`InvalidEncodingError`, and change nothing else. -/
def Obligations.AppAndTrnLengthErrors : Prop :=
  ∀ (v : Word) (n k : Nat) (buf : Lanes) (s : State), InClass v n →
    (8 < n + k → exec (.app v k buf) s = .next (s.answer (.error .invalidEncoding))) ∧
    (n < k → exec (.trn v k) s = .next (s.answer (.error .invalidEncoding)))

/-- 43, the meaning of `TRN` (the error kind rests on the spec's decision D10): a `TRN` request raises
`InvalidEncodingError` exactly when `len > Len(val)`; otherwise it answers the value of the first `Len(val) - len` bytes
of the Encoding, just as a `DEC` request of them does. `len = 0` returns `val`, `len = Len(val)` returns 0, and 0 accepts
only `len = 0`. -/
def Obligations.TrnDecodesTheRemainder : Prop :=
  ∀ (r d : Request) (rest : List Request) (out : List Response), r.op = 4 →
    (step ⟨r :: rest, out⟩ = .next (State.answer ⟨rest, out⟩ (.error .invalidEncoding)) ↔ r.len.toNat > lenOf r.val) ∧
    (r.len.toNat ≤ lenOf r.val →
      (∃ w, decValue ((encBytes r.val).take (lenOf r.val - r.len.toNat)) = .ok w ∧
        step ⟨r :: rest, out⟩ = .next (State.answer ⟨rest, out⟩ (.value w))) ∧
      (d.op = 1 → d.len.toNat = lenOf r.val - r.len.toNat →
        d.buf.toList.take d.len.toNat = (encBytes r.val).take (lenOf r.val - r.len.toNat) →
        step ⟨r :: rest, out⟩ = step ⟨d :: rest, out⟩)) ∧
    (r.len = 0 → step ⟨r :: rest, out⟩ = .next (State.answer ⟨rest, out⟩ (.value r.val))) ∧
    (r.len.toNat = lenOf r.val → step ⟨r :: rest, out⟩ = .next (State.answer ⟨rest, out⟩ (.value 0))) ∧
    (r.val = 0 → r.len ≠ 0 → step ⟨r :: rest, out⟩ = .next (State.answer ⟨rest, out⟩ (.error .invalidEncoding)))

/-- 43, the closed form of `TRN` (marked "[derived: …]" by the spec): with `c ≤ L`, `TRN` completes with
`R(L-c) + ((v - R(L)) mod 256^(L-c))`, a value of class `L - c`. -/
def Obligations.TrnClosedForm : Prop :=
  ∀ (v : Word) (n c : Nat) (s : State), InClass v n → c ≤ n →
    ∃ w : Word, w.toNat = (256 ^ (n - c) - 1) / 255 + (v.toNat - (256 ^ n - 1) / 255) % 256 ^ (n - c) ∧
      InClass w (n - c) ∧
      exec (.trn v c) s = .next (s.answer (.value w))

/-- 43 R81: if `APP` of `v` with `k` bytes answers `w`, then `TRN` of `w` by `k` answers `v`; below 8 bytes in all `APP`
always answers. The other direction does not hold in general: there are a value and bytes for which `APP` after `TRN` gives
another value, and when `TRN` of `v` by `c` answers `w`, `APP` of `w` with `c` bytes gives `v` back exactly when they are the
bytes removed, the last `c` of the Encoding of `v`. The premise that `APP` answers is the one R81 states (C6). -/
def Obligations.TruncateUndoesAppend : Prop :=
  (∀ (v w : Word) (k : Nat) (buf : Lanes) (s : State),
    exec (.app v k buf) s = .next (s.answer (.value w)) →
    exec (.trn w k) s = .next (s.answer (.value v))) ∧
  (∀ (v : Word) (k : Nat) (buf : Lanes) (s : State), lenOf v + k ≤ 7 →
    ∃ w, exec (.app v k buf) s = .next (s.answer (.value w))) ∧
  (∃ (v w x : Word) (c : Nat) (buf : Lanes), x ≠ v ∧ ∀ s,
    exec (.trn v c) s = .next (s.answer (.value w)) ∧
    exec (.app w c buf) s = .next (s.answer (.value x))) ∧
  (∀ (v w : Word) (c : Nat) (buf : Lanes) (s : State),
    exec (.trn v c) s = .next (s.answer (.value w)) →
    (exec (.app w c buf) s = .next (s.answer (.value v)) ↔ readLanes buf c = (encBytes v).drop (lenOf v - c)))

/-! ### Responses and errors (10, 60) -/

/-- The response side (10 §3; the spec's decisions D6, D8): every operation delivers one response whose valid fields are
those of the table for its status: `ENC` the count and that many lanes, or `BufferCapacityError`; `TXT` the count and that
many characters; the others a value, or `InvalidEncodingError`. On an error no field is valid. Status 3 is never produced.
-/
def Obligations.ResponsesCarryExactlyTheirValidFields : Prop :=
  ∀ (i : Instr) (s t : State), exec i s = .next t →
    ∃ r, t.responses = s.responses ++ [r] ∧ r.status ≠ 3 ∧
      (r.status ≠ 0 → r.rval = none ∧ r.rlen = none ∧ r.rtlen = none ∧ ∀ j, r.rbuf j = none ∧ r.rtxt j = none) ∧
      match i with
      | .enc v _ => r.status ≠ 2 ∧ (r.status = 0 → r.rlen = some (lenOf v) ∧ r.rval = none ∧ r.rtlen = none ∧
          ∀ j, ((r.rbuf j).isSome = true ↔ j < lenOf v) ∧ r.rtxt j = none)
      | .txt v => r.status = 0 ∧ r.rtlen = some (3 * lenOf v - 1) ∧ r.rval = none ∧ r.rlen = none ∧
          ∀ j, ((r.rtxt j).isSome = true ↔ j < 3 * lenOf v - 1) ∧ r.rbuf j = none
      | _ => r.status ≠ 1 ∧ (r.status = 0 → r.rval.isSome = true ∧ r.rlen = none ∧ r.rtlen = none ∧
          ∀ j, r.rbuf j = none ∧ r.rtxt j = none)

/-- Ignored fields (10 §3; the spec's decision D9): two requests with the same operation that agree on the fields and
lanes the operation reads are served alike, whatever the rest holds. -/
def Obligations.IgnoredFieldsDoNotMatter : Prop :=
  ∀ (a b : Request) (rest : List Request) (out : List Response), a.op = b.op → Accepted a →
    (a.op = 0 → a.val = b.val ∧ a.cap = b.cap) →
    (a.op = 1 → a.len = b.len ∧
      (a.len.toNat ≤ 8 → a.buf.toList.take a.len.toNat = b.buf.toList.take a.len.toNat)) →
    (a.op = 2 → a.val = b.val) →
    (a.op = 3 → a.val = b.val ∧ a.len = b.len ∧
      (lenOf a.val + a.len.toNat ≤ 8 → a.buf.toList.take a.len.toNat = b.buf.toList.take a.len.toNat)) →
    (a.op = 4 → a.val = b.val ∧ a.len = b.len) →
    ∃ u, step ⟨a :: rest, out⟩ = .next u ∧ step ⟨b :: rest, out⟩ = .next u

/-- Errors disturb nothing (60 §3): after a request answered with an error, the requests that follow it run just as if it had
never been issued, the error standing before their responses. The
lists in State are this model's choice (log 1). -/
def Obligations.AFailingRequestDisturbsNoOther : Prop :=
  ∀ (r : Request) (rest : List Request) (out : List Response) (k : ErrorKind),
    step ⟨r :: rest, out⟩ = .next (State.answer ⟨rest, out⟩ (.error k)) →
    ∀ n rest' new, runFor n ⟨rest, out⟩ = .next ⟨rest', out ++ new⟩ →
      runFor (n + 1) ⟨r :: rest, out⟩ = .next ⟨rest', out ++ .error k :: new⟩

/-! ### The machine -/

/-- A step takes the first request and runs the operation its ports select (30 §6), on the state without that request. That
requests stand in a list from which a step takes and removes the first is this model's choice (log 1, log 6); that one request
is one atomic step is the spec's decision D19 (log 11). -/
def Obligations.StepRunsTheDecodedRequest : Prop :=
  ∀ (s : State) (r : Request) (rest : List Request) (i : Instr),
    s.requests = r :: rest → decode r = .ok i → step s = exec i ⟨rest, s.responses⟩

/-- Reserved codes (30 §7; the spec's decision D5): a request with `op` 5, 6 or 7 is refused, whatever its other fields,
and a request is refused in no other case. -/
def Obligations.StepRefusesExactlyTheReservedCodes : Prop :=
  ∀ (r : Request) (rest : List Request) (out : List Response),
    (5 ≤ r.op.toNat → step ⟨r :: rest, out⟩ = .refused (.reservedOp r.op)) ∧
    (r.op.toNat < 5 → ∃ t, step ⟨r :: rest, out⟩ = .next t)

/-- Frame of every operation (20 §4, §6): it completes, adds one response after those already delivered, which depends on the
operation and its operands alone, and leaves every other part of the state as it was. That State holds these
lists is this model's choice (log 1). -/
def Obligations.ExecAddsOneResponseAndNothingElse : Prop :=
  ∃ f : Instr → Response, ∀ (i : Instr) (s : State), exec i s = .next ⟨s.requests, s.responses ++ [f i]⟩

/-- A whole program (20 §6, 70 §4): a list of accepted requests of any length runs to its end, and each request gets, in the
order of issue, exactly one response: the one it gets when served alone from reset. One response for each request, in the order
of issue, is the spec's decision D19 (log 11); the lists in State are this model's choice (log 1, log 6). -/
def Obligations.EveryRequestGetsItsStandAloneResponse : Prop :=
  ∃ f : Request → Response,
    (∀ r, Accepted r → step { State.reset with requests := [r] } = .next ⟨[], [f r]⟩) ∧
    ∀ (rs later : List Request) (out : List Response), (∀ r ∈ rs, Accepted r) →
      runFor rs.length ⟨rs ++ later, out⟩ = .next ⟨later, out ++ rs.map f⟩

/-- Every step keeps the invariant: no response ever delivered is an oversized or redundant Encoding or an ill-formed text
(10 §3, 40 R57, 42 R68, R70, R71; the text form is the spec's decision D12). -/
def Obligations.EveryStepKeepsResponsesLegal : Prop :=
  ∀ s t : State, s.Inv → step s = .next t → t.Inv

/-- After reset nothing is waiting and nothing has been delivered (10 §4), and the invariant holds. That no request is
waiting is this model's choice (log 1). -/
def Obligations.ResetHoldsNothing : Prop :=
  State.reset.requests = [] ∧ State.reset.responses = [] ∧ State.reset.Inv

/-! ### The request format (30 §6) -/

/-- Decoding and encoding agree: every well-formed operation, with every operand value, is read back from the ports it is
encoded on; and every request that decodes at all decodes to a well-formed operation whose encoding has the same code and the
same value in every field the operation reads. The fields and codes are the spec's decisions
D2 and D4; nothing is claimed of the fields an operation does not read, which the encoder drives to zero (log 3). -/
def Obligations.DecodeAndEncodeAgree : Prop :=
  (∀ i : Instr, i.wellFormed = true → decode (encode i) = .ok i) ∧
  (∀ (r : Request) (i : Instr), decode r = .ok i → i.wellFormed = true ∧ (encode i).op = r.op ∧
    (r.op ≠ 1 → (encode i).val = r.val) ∧ (r.op = 0 → (encode i).cap = r.cap) ∧
    (r.op = 1 ∨ r.op = 3 ∨ r.op = 4 → (encode i).len = r.len) ∧ (r.op = 1 ∨ r.op = 3 → (encode i).buf = r.buf)) ∧
  (∀ r : Request, (∃ i, decode r = .ok i) ↔ Accepted r)

/-- Words written out from the table of operation codes (30 §6; the numbers are the spec's decision D4). -/
def Obligations.TableWordsDecodeToTheirOperations : Prop :=
  decode ⟨0b000, 257, Vector.replicate 8 0xFF, 15, 8⟩ = .ok (.enc 257 8) ∧
  decode ⟨0b001, 9, #v[0x34, 0x12, 0, 0, 0, 0, 0, 0], 2, 0⟩ = .ok (.dec 2 #v[0x34, 0x12, 0, 0, 0, 0, 0, 0]) ∧
  decode ⟨0b010, 258, Vector.replicate 8 0, 9, 0⟩ = .ok (.txt 258) ∧
  decode ⟨0b011, 1, #v[0x34, 0x12, 0, 0, 0, 0, 0, 0], 2, 0⟩ = .ok (.app 1 2 #v[0x34, 0x12, 0, 0, 0, 0, 0, 0]) ∧
  decode ⟨0b100, 1258753, Vector.replicate 8 0xFF, 2, 0⟩ = .ok (.trn 1258753 2) ∧
  decode ⟨0b101, 0, Vector.replicate 8 0, 0, 0⟩ = .error (.reservedOp 5)
end

