-- ==== Sys2Proof/Laws/Band.lean ====
section
/-! SUPPORT. The band constants as numbers, and everything the band lookup says about a value. -/

namespace Sys2Proof.Machine

/-- Every band constant fits in 64 bits, so it is the number its formula says (30 R38). -/
theorem toNat_R {n : Nat} (h : n ≤ 8) : (R n).toNat = (256 ^ n - 1) / 255 := by
  interval_cases n <;> decide

theorem add64_toNat (a b : Word) : (add64 a b).toNat = (a.toNat + b.toNat) % 2 ^ 64 :=
  BitVec.toNat_add a b

theorem sub64_toNat {a b : Word} (h : b.toNat ≤ a.toNat) : (sub64 a b).toNat = a.toNat - b.toNat :=
  BitVec.toNat_sub_of_le (BitVec.le_def.mpr h)

/-- The band lookup as comparisons of numbers (30 R39). -/
theorem lenOf_eq_ite (v : Word) : lenOf v =
    if v.toNat = 0 then 0 else if v.toNat < 257 then 1 else if v.toNat < 65793 then 2
    else if v.toNat < 16843009 then 3 else if v.toNat < 4311810305 then 4 else if v.toNat < 1103823438081 then 5
    else if v.toNat < 282578800148737 then 6 else if v.toNat < 72340172838076673 then 7 else 8 := by
  have h0 : v = 0 ↔ v.toNat = 0 := by rw [BitVec.toNat_eq]; rfl
  simp only [lenOf, h0, BitVec.lt_def]
  rfl

theorem lenOf_le (v : Word) : lenOf v ≤ 8 := by
  rw [lenOf_eq_ite]
  generalize v.toNat = x
  split_ifs <;> decide

/-- `R(n+1) = R(n) + 256^n` (30 R38). -/
theorem repunit_succ (n : Nat) : (256 ^ (n + 1) - 1) / 255 = (256 ^ n - 1) / 255 + 256 ^ n := by
  have h : 1 ≤ 256 ^ n := Nat.one_le_pow _ _ (by norm_num)
  rw [pow_succ, show 256 ^ n * 256 - 1 = 256 ^ n - 1 + 256 ^ n * 255 by omega]
  exact Nat.add_mul_div_right _ _ (by norm_num)

/-- The band constants increase (30 R38). -/
theorem repunit_mono {m n : Nat} (h : m ≤ n) : (256 ^ m - 1) / 255 ≤ (256 ^ n - 1) / 255 :=
  Nat.div_le_div_right (Nat.sub_le_sub_right (Nat.pow_le_pow_right (by norm_num) h) 1)

/-- A value lies in its own class (30 R39, R40). -/
theorem lenOf_class (v : Word) : (256 ^ lenOf v - 1) / 255 ≤ v.toNat ∧
    (lenOf v < 8 → v.toNat < (256 ^ (lenOf v + 1) - 1) / 255) := by
  rw [lenOf_eq_ite]
  generalize v.toNat = x
  split_ifs <;> norm_num <;> omega

/-- A value is at least the constant of its class (30 R40). -/
theorem R_lenOf_le (v : Word) : (256 ^ lenOf v - 1) / 255 ≤ v.toNat := (lenOf_class v).1

/-- A value is below the constant of the next class (30 R39). -/
theorem lt_R_lenOf_succ {v : Word} (h : lenOf v < 8) : v.toNat < (256 ^ (lenOf v + 1) - 1) / 255 :=
  (lenOf_class v).2 h

/-- The band lookup, once and for all: `n` is the length of `v` exactly when `v` lies in class `n` (30 R39). -/
theorem lenOf_eq_iff {v : Word} {n : Nat} (h : n ≤ 8) :
    lenOf v = n ↔ (256 ^ n - 1) / 255 ≤ v.toNat ∧ (n < 8 → v.toNat < (256 ^ (n + 1) - 1) / 255) := by
  constructor
  · rintro rfl
    exact lenOf_class v
  · rintro ⟨h1, h2⟩
    rcases lt_trichotomy (lenOf v) n with hl | hl | hl
    · have := repunit_mono (show lenOf v + 1 ≤ n from hl)
      have := lt_R_lenOf_succ (v := v) (by omega)
      omega
    · exact hl
    · have := repunit_mono (show n + 1 ≤ lenOf v from hl)
      have := h2 (by have := lenOf_le v; omega)
      have := R_lenOf_le v
      omega

/-- The subtraction of `Stored` never borrows (30 R41). -/
theorem stored_toNat (v : Word) : (stored v).toNat = v.toNat - (256 ^ lenOf v - 1) / 255 := by
  have h := toNat_R (lenOf_le v)
  rw [stored, sub64_toNat (by rw [h]; exact R_lenOf_le v), h]

/-- A stored value fits the bytes of its class (30 R41). -/
theorem stored_lt (v : Word) : (stored v).toNat < 256 ^ lenOf v := by
  rw [stored_toNat]
  rcases Nat.lt_or_ge (lenOf v) 8 with h | h
  · have := lt_R_lenOf_succ h
    have := R_lenOf_le v
    rw [repunit_succ] at *
    omega
  · have := v.isLt
    rw [show lenOf v = 8 from le_antisymm (lenOf_le v) h]
    norm_num
    omega

end Sys2Proof.Machine
end

