-- ==== Sys2Proof/Laws/WellFormed.lean ====
section
/-! SUPPORT. What the width checks say. -/

namespace Sys2Proof

@[simp] theorem fitsLen_iff {n : Nat} : fitsLen n = true ↔ n < 16 := decide_eq_true_iff

@[simp] theorem fitsCap_iff {n : Nat} : fitsCap n = true ↔ n < 16 := decide_eq_true_iff

/-- A count that fits a 4-bit port is read back from it. -/
theorem toNat_ofNat_of_lt {n : Nat} (h : n < 16) : (BitVec.ofNat 4 n).toNat = n := by
  rw [BitVec.toNat_ofNat]
  omega

end Sys2Proof
end

