-- ==== Sys2Proof/Laws/Decode.lean ====
section
/-! SUPPORT. Everything the decoder can answer. -/

namespace Sys2Proof

/-- The decoder, code by code (30 R50, R52). -/
theorem decode_cases (r : Request) :
    (r.op = 0 ∧ decode r = .ok (.enc r.val r.cap.toNat)) ∨
    (r.op = 1 ∧ decode r = .ok (.dec r.len.toNat r.buf)) ∨
    (r.op = 2 ∧ decode r = .ok (.txt r.val)) ∨
    (r.op = 3 ∧ decode r = .ok (.app r.val r.len.toNat r.buf)) ∨
    (r.op = 4 ∧ decode r = .ok (.trn r.val r.len.toNat)) ∨
    (5 ≤ r.op.toNat ∧ decode r = .error (.reservedOp r.op)) := by
  obtain ⟨op, val, buf, len, cap⟩ := r
  have h : ∀ o : BitVec 3, o = 0 ∨ o = 1 ∨ o = 2 ∨ o = 3 ∨ o = 4 ∨ o = 5 ∨ o = 6 ∨ o = 7 := by decide
  rcases h op with rfl | rfl | rfl | rfl | rfl | rfl | rfl | rfl <;> simp [decode]

theorem decode_enc {r : Request} (h : r.op = 0) : decode r = .ok (.enc r.val r.cap.toNat) := by
  simp [decode, h]

theorem decode_dec {r : Request} (h : r.op = 1) : decode r = .ok (.dec r.len.toNat r.buf) := by
  simp [decode, h]

theorem decode_txt {r : Request} (h : r.op = 2) : decode r = .ok (.txt r.val) := by
  simp [decode, h]

theorem decode_app {r : Request} (h : r.op = 3) : decode r = .ok (.app r.val r.len.toNat r.buf) := by
  simp [decode, h]

theorem decode_trn {r : Request} (h : r.op = 4) : decode r = .ok (.trn r.val r.len.toNat) := by
  simp [decode, h]

end Sys2Proof
end

