-- ==== Sys2Proof/Laws/Format.lean ====
section
/-! SUPPORT. What the Encoding functions do: the bytes of a value, the number a byte sequence spells, and when a decode
answers. -/

namespace Sys2Proof.Machine

theorem toNat_byteAt (x : Word) (i : Nat) : (byteAt x i).toNat = x.toNat / 256 ^ i % 256 := by
  rw [byteAt, BitVec.extractLsb'_toNat, Nat.shiftRight_eq_div_pow, pow_mul]
  norm_num only

@[simp] theorem encBytes_length (v : Word) : (encBytes v).length = lenOf v := by
  simp [encBytes]

@[simp] theorem byteSum_nil : byteSum [] = 0 := rfl

@[simp] theorem byteSum_cons (b : Byte) (s : List Byte) : byteSum (b :: s) = b.toNat + 256 * byteSum s := rfl

/-- `Sum(s)` fits the bytes of `s` (30 R43). -/
theorem byteSum_lt (s : List Byte) : byteSum s < 256 ^ s.length := by
  induction s with
  | nil => simp
  | cons b s ih =>
    have := b.isLt
    simp only [byteSum_cons, List.length_cons, pow_succ]
    omega

/-- Appended bytes are the more significant ones (20 R28). -/
theorem byteSum_append (s t : List Byte) : byteSum (s ++ t) = byteSum s + 256 ^ s.length * byteSum t := by
  induction s with
  | nil => simp
  | cons b s ih => simp only [List.cons_append, byteSum_cons, ih, List.length_cons, pow_succ]; ring

/-- Byte sequences of one length that spell the same number are equal. -/
theorem byteSum_inj {s t : List Byte} (hl : s.length = t.length) (h : byteSum s = byteSum t) : s = t := by
  induction s generalizing t with
  | nil => exact (List.eq_nil_of_length_eq_zero hl.symm).symm
  | cons b s ih =>
    obtain _ | ⟨c, t⟩ := t
    · simp at hl
    · have hb := b.isLt
      have hc := c.isLt
      simp only [byteSum_cons] at h
      have h1 : b = c := BitVec.eq_of_toNat_eq (by omega)
      rw [h1, ih (by simpa using hl) (by omega)]

/-- `x` in `n` little-endian bytes spells `x mod 256^n`. -/
theorem byteSum_digits (x : Word) (n : Nat) :
    byteSum ((List.range n).map (byteAt x)) = x.toNat % 256 ^ n := by
  induction n with
  | zero => simp [Nat.mod_one]
  | succ n ih =>
    rw [List.range_succ, List.map_append, byteSum_append, ih]
    simp only [List.map_cons, List.map_nil, byteSum_cons, byteSum_nil, List.length_map, List.length_range,
      toNat_byteAt, Nat.mul_zero, Nat.add_zero]
    rw [pow_succ, Nat.mod_mul]

/-- The bytes of a value spell its stored value (30 R42). -/
theorem byteSum_encBytes (v : Word) : byteSum (encBytes v) = (stored v).toNat := by
  rw [encBytes, byteSum_digits, Nat.mod_eq_of_lt (stored_lt v)]

/-- Everything a decode can do (30 R44): an error for more than 8 bytes, an error for an 8-byte sequence whose sum with
`R(8)` reaches `2^64`, and otherwise `R(n) + Sum(s)`. -/
theorem decValue_cases (s : List Byte) :
    (8 < s.length ∧ decValue s = .error .lenOver8) ∨
    (s.length = 8 ∧ 2 ^ 64 ≤ (256 ^ 8 - 1) / 255 + byteSum s ∧ decValue s = .error .redundant) ∨
    (s.length ≤ 8 ∧ ∃ t : Word, t.toNat = (256 ^ s.length - 1) / 255 + byteSum s ∧ decValue s = .ok t) := by
  rcases Nat.lt_or_ge 8 s.length with h | h
  · exact .inl ⟨h, by simp [decValue, Config.maxLen, h]⟩
  · right
    have hs := byteSum_lt s
    have hlt : byteSum s < 2 ^ 64 := hs.trans_le
      ((Nat.pow_le_pow_right (by norm_num) h).trans (by norm_num))
    have ht : (add64 (R s.length) (BitVec.ofNat 64 (byteSum s))).toNat
        = ((256 ^ s.length - 1) / 255 + byteSum s) % 2 ^ 64 := by
      rw [add64_toNat, toNat_R h, BitVec.toNat_ofNat, Nat.mod_eq_of_lt hlt]
    have hd : decValue s = if s.length = 8 ∧ add64 (R s.length) (BitVec.ofNat 64 (byteSum s)) < R 8
        then .error .redundant else .ok (add64 (R s.length) (BitVec.ofNat 64 (byteSum s))) := by
      simp [decValue, Config.maxLen, Nat.not_lt.mpr h]
    simp only [hd, BitVec.lt_def, ht, toNat_R (le_refl 8)]
    rcases Nat.lt_or_ge ((256 ^ s.length - 1) / 255 + byteSum s) (2 ^ 64) with hw | hw
    · refine .inr ⟨h, _, ht.trans (Nat.mod_eq_of_lt hw), ?_⟩
      rw [Nat.mod_eq_of_lt hw, if_neg]
      rintro ⟨h8, hlt⟩
      rw [h8] at hlt
      omega
    · have h8 : s.length = 8 := by
        rcases Nat.lt_or_ge s.length 8 with h' | h'
        · exfalso
          have hs' := repunit_succ s.length
          have : (256 ^ (s.length + 1) - 1) / 255 ≤ (256 ^ 8 - 1) / 255 :=
            Nat.div_le_div_right (Nat.sub_le_sub_right (Nat.pow_le_pow_right (by norm_num) h') 1)
          norm_num at this
          omega
        · omega
      left
      rw [h8] at hw
      refine ⟨h8, hw, ?_⟩
      rw [if_pos]
      rw [h8]
      refine ⟨rfl, ?_⟩
      norm_num at hw ⊢
      omega

/-- A decode that answers: its length and the number it spells. -/
theorem decValue_ok_iff {s : List Byte} {w : Word} :
    decValue s = .ok w ↔ s.length ≤ 8 ∧ w.toNat = (256 ^ s.length - 1) / 255 + byteSum s := by
  obtain ⟨h, e⟩ | ⟨h, hw, e⟩ | ⟨h, t, ht, e⟩ := decValue_cases s
  · simp [e]; omega
  · have := w.isLt
    simp only [e, h, reduceCtorEq, false_iff]
    omega
  · rw [e, Except.ok.injEq]
    constructor
    · rintro rfl; exact ⟨h, ht⟩
    · rintro ⟨-, hw⟩; exact BitVec.eq_of_toNat_eq (ht.trans hw.symm)

/-- A decode below 8 bytes always answers (41 R65). -/
theorem decValue_total {s : List Byte} (h : s.length < 8) : ∃ w, decValue s = .ok w := by
  obtain ⟨h', -⟩ | ⟨h', -⟩ | ⟨-, t, -, e⟩ := decValue_cases s
  · omega
  · omega
  · exact ⟨t, e⟩

/-- A decoded value lies in the class of its length (41 R65). -/
theorem lenOf_of_decValue {s : List Byte} {w : Word} (h : decValue s = .ok w) : lenOf w = s.length := by
  obtain ⟨hl, hw⟩ := decValue_ok_iff.mp h
  rw [lenOf_eq_iff hl, hw, repunit_succ]
  exact ⟨Nat.le_add_right _ _, fun _ => Nat.add_lt_add_left (byteSum_lt s) _⟩

/-- Decoding the Encoding of a value gives the value (30 R45 (a)). -/
theorem decValue_encBytes (v : Word) : decValue (encBytes v) = .ok v := by
  rw [decValue_ok_iff, encBytes_length, byteSum_encBytes, stored_toNat]
  have := R_lenOf_le v
  exact ⟨lenOf_le v, by omega⟩

/-- A decoded sequence is the Encoding of its value (30 R45 (b), (c)). -/
theorem encBytes_of_decValue {s : List Byte} {w : Word} (h : decValue s = .ok w) : encBytes w = s := by
  have hl := lenOf_of_decValue h
  refine byteSum_inj (by simpa using hl) ?_
  rw [byteSum_encBytes, stored_toNat, hl, (decValue_ok_iff.mp h).2]
  omega

/-- A sequence decodes to `v` exactly when it is the Encoding of `v` (30 R45). -/
theorem decValue_ok_iff_encBytes {s : List Byte} {v : Word} : decValue s = .ok v ↔ encBytes v = s :=
  ⟨encBytes_of_decValue, fun h => h ▸ decValue_encBytes v⟩

/-- No Encoding is a redundant pattern (40 R57). -/
theorem byteSum_encBytes_le {v : Word} (h : lenOf v = 8) : byteSum (encBytes v) ≤ 0xFEFE_FEFE_FEFE_FEFE := by
  have := v.isLt
  rw [byteSum_encBytes, stored_toNat, h]
  norm_num
  omega

end Sys2Proof.Machine
end

