-- ==== Sys2Proof/Laws/State.lean ====
section
/-! SUPPORT. The fields of the state after each kind of update, and of the reset state. -/

namespace Sys2Proof.Machine

@[simp] theorem State.requests_of_responses_update (s : State) (l : List Response) :
    ({ s with responses := l } : State).requests = s.requests := rfl

@[simp] theorem State.responses_of_responses_update (s : State) (l : List Response) :
    ({ s with responses := l } : State).responses = l := rfl

@[simp] theorem State.requests_of_requests_update (s : State) (l : List Request) :
    ({ s with requests := l } : State).requests = l := rfl

@[simp] theorem State.responses_of_requests_update (s : State) (l : List Request) :
    ({ s with requests := l } : State).responses = s.responses := rfl

@[simp] theorem State.requests_reset : State.reset.requests = [] := rfl

@[simp] theorem State.responses_reset : State.reset.responses = [] := rfl

end Sys2Proof.Machine
end

