-- ==== Sys2Proof/Laws/Ops.lean ====
section
/-! SUPPORT. One lemma for each shared operation: reading lanes, delivering a response, raising an error, answering with a
decode. -/

namespace Sys2Proof.Machine

@[simp] theorem readLanes_length (buf : Lanes) (n : Nat) : (readLanes buf n).length = min n 8 := by
  simp [readLanes]

/-- Reading lanes gives what the lanes below the count hold; the others do not matter (41 R63). -/
theorem readLanes_congr {a b : Lanes} {n : Nat} (h : ∀ i (hi : i < 8), i < n → a[i] = b[i]) :
    readLanes a n = readLanes b n := by
  refine List.ext_getElem (by simp) fun i h1 _ => ?_
  simp only [readLanes_length] at h1
  simpa [readLanes] using h i (by omega) (by omega)

@[simp] theorem State.requests_answer (s : State) (r : Response) : (s.answer r).requests = s.requests := rfl

@[simp] theorem State.responses_answer (s : State) (r : Response) :
    (s.answer r).responses = s.responses ++ [r] := rfl

/-- The answer written out. -/
theorem State.answer_mk (q : List Request) (out : List Response) (r : Response) :
    State.answer ⟨q, out⟩ r = ⟨q, out ++ [r]⟩ := rfl

/-- Two answers to one state agree exactly when the responses do. -/
theorem State.answer_inj {s : State} {r r' : Response} : s.answer r = s.answer r' ↔ r = r' := by
  simp [State.answer]

theorem deliver_eq (r : Response) (s : State) : deliver r s = .next (s.answer r) := rfl

/-- A delivery goes on, and appends one response (70 R106). -/
theorem deliver_next_iff {r : Response} {s t : State} : deliver r s = .next t ↔ t = s.answer r := by
  rw [deliver_eq, Host.Outcome.next.injEq, eq_comm]

/-- An error goes on, and its response carries the kind alone (60 R87, R88). -/
theorem raise_eq (c : Cause) (s : State) : raise c s = .next (s.answer (.error c.kind)) := rfl

/-- A decode that answers delivers its value. -/
theorem answerValue_ok (t : Word) (s : State) : answerValue (.ok t) s = .next (s.answer (.value t)) := rfl

/-- A decode that fails raises its cause. -/
theorem answerValue_error (c : Cause) (s : State) :
    answerValue (.error c) s = .next (s.answer (.error c.kind)) := rfl

end Sys2Proof.Machine
end

