-- ==== Sys2Proof/Laws/Text.lean ====
section
/-! SUPPORT. The hex text: its length and what each lane holds. -/

namespace Sys2Proof.Machine

@[simp] theorem hexPair_length (b : Byte) : (hexPair b).length = 2 := rfl

@[simp] theorem hexText_nil : hexText [] = [] := rfl

theorem hexText_singleton (b : Byte) : hexText [b] = hexPair b := by
  simp [hexText, List.intercalate]

/-- One more byte in front: its two digits, a space, the rest (42 R71). -/
theorem hexText_cons_cons (b c : Byte) (s : List Byte) :
    hexText (b :: c :: s) = hexPair b ++ space :: hexText (c :: s) := by
  simp [hexText, List.intercalate]

/-- The text of `n` bytes has `3n - 1` characters, none when `n = 0` (42 R68). -/
theorem hexText_length (s : List Byte) : (hexText s).length = 3 * s.length - 1 := by
  induction s with
  | nil => rfl
  | cons b s ih =>
    obtain _ | ⟨c, s⟩ := s
    · simp [hexText_singleton]
    · rw [hexText_cons_cons]
      simp only [List.length_append, hexPair_length, List.length_cons, ih]
      omega

/-- Byte `i` stands at lanes `3i` and `3i+1`, high nibble first, and a space follows every byte but the last
(42 R70, R71). -/
theorem hexText_lanes {s : List Byte} {i : Nat} {b : Byte} (h : s[i]? = some b) :
    (hexText s)[3 * i]? = some (hexDigit (b.extractLsb' 4 4)) ∧
    (hexText s)[3 * i + 1]? = some (hexDigit (b.extractLsb' 0 4)) ∧
    (i + 1 < s.length → (hexText s)[3 * i + 2]? = some space) := by
  induction s generalizing i with
  | nil => simp at h
  | cons a s ih =>
    obtain _ | ⟨c, s⟩ := s
    · obtain rfl : i = 0 := by
        by_contra hi
        rw [List.getElem?_eq_none (by simp; omega)] at h
        simp at h
      simp only [List.getElem?_cons_zero, Option.some.injEq] at h
      subst h
      simp [hexText_singleton, hexPair]
    · rw [hexText_cons_cons]
      obtain _ | i := i
      · simp only [List.getElem?_cons_zero, Option.some.injEq] at h
        subst h
        simp [hexPair]
      · have := ih (i := i) (by simpa using h)
        rw [show 3 * (i + 1) = 3 * i + 3 by ring]
        simpa [hexPair, List.getElem?_cons_succ, Nat.add_right_comm _ 3] using this

end Sys2Proof.Machine
end

