-- ==== Sys2Proof/Laws/Exec.lean ====
section
/-! SUPPORT. What each meaning delivers, in one equation, and what a step does. -/

namespace Sys2Proof.Machine

/-- The response a decode gives. -/
def responseOf : Except Cause Word → Response
  | .ok t => .value t
  | .error c => .error c.kind

theorem answerValue_deliver (d : Except Cause Word) (s : State) : answerValue d s = deliver (responseOf d) s := by
  cases d <;> rfl

theorem execEnc_eq (val : Word) (cap : Nat) (s : State) :
    execEnc val cap s = deliver (if cap < lenOf val then .error .bufferCapacity else .bytes (encBytes val)) s := by
  unfold execEnc
  split <;> rfl

theorem execDec_eq (len : Nat) (buf : Lanes) (s : State) :
    execDec len buf s =
      deliver (if 8 < len then .error .invalidEncoding else responseOf (decValue (readLanes buf len))) s := by
  unfold execDec
  simp only [answerValue_deliver, Config.maxLen, gt_iff_lt]
  split <;> rfl

theorem execTxt_eq (val : Word) (s : State) : execTxt val s = deliver (.text (hexText (encBytes val))) s := rfl

theorem execApp_eq (val : Word) (len : Nat) (buf : Lanes) (s : State) :
    execApp val len buf s = deliver (if 8 < lenOf val + len then .error .invalidEncoding
      else responseOf (decValue (encBytes val ++ readLanes buf len))) s := by
  unfold execApp
  simp only [answerValue_deliver, encBytes_length, Config.maxLen, gt_iff_lt]
  split <;> rfl

theorem execTrn_eq (val : Word) (len : Nat) (s : State) :
    execTrn val len s = deliver (if lenOf val < len then .error .invalidEncoding
      else responseOf (decValue ((encBytes val).take (lenOf val - len)))) s := by
  unfold execTrn
  simp only [answerValue_deliver, encBytes_length, gt_iff_lt]
  split <;> rfl

theorem step_nil (out : List Response) : step ⟨[], out⟩ = .refused .noRequest := rfl

/-- What a step does with the first request, by what its ports decode to. -/
theorem step_cons (r : Request) (rest : List Request) (out : List Response) :
    step ⟨r :: rest, out⟩ = match decode r with
      | .ok i => exec i ⟨rest, out⟩
      | .error (.reservedOp op) => .refused (.reservedOp op) := rfl

/-- A step that answers ran one decoded request. -/
theorem step_next_cases {s t : State} (h : step s = .next t) :
    ∃ r rest i, s.requests = r :: rest ∧ decode r = .ok i ∧ exec i ⟨rest, s.responses⟩ = .next t := by
  obtain ⟨_ | ⟨r, rest⟩, out⟩ := s
  · simp [step_nil] at h
  · rw [step_cons] at h
    split at h
    · exact ⟨r, rest, _, rfl, ‹_›, h⟩
    · simp at h

end Sys2Proof.Machine
end

