-- ==== Sys2Proof/Laws/Claims.lean ====
section
/-! SUPPORT. The claims' own arithmetic (`InClass`, `digitBytes`, `laneSum`, `runFor`) and the model's functions. -/

namespace Sys2Proof.Machine

/-- The lookup finds the class. -/
theorem lenOf_of_inClass {v : Word} {n : Nat} (h : InClass v n) : lenOf v = n :=
  (lenOf_eq_iff h.1).mpr h.2

theorem inClass_lenOf (v : Word) : InClass v (lenOf v) := ⟨lenOf_le v, lenOf_class v⟩

/-- The digits of a number below `2^64` are the bytes of its word. -/
theorem digitBytes_toNat (x : Word) (n : Nat) : digitBytes x.toNat n = (List.range n).map (byteAt x) := by
  refine List.map_congr_left fun i _ => BitVec.eq_of_toNat_eq ?_
  rw [toNat_byteAt, BitVec.toNat_ofNat, Nat.mod_mod]

/-- The claims' sum over lanes is `Sum` of the lanes read. -/
theorem laneSum_eq (buf : Lanes) {n : Nat} (h : n ≤ 8) : laneSum buf n = byteSum (readLanes buf n) := by
  induction n with
  | zero => simp [laneSum, readLanes]
  | succ n ih =>
    have hlen : buf.toList.length = 8 := by simp
    rw [laneSum, Finset.sum_range_succ, ← laneSum, ih (by omega)]
    simp only [readLanes]
    rw [List.take_add_one, byteSum_append, List.getD_eq_getElem?_getD, List.getElem?_eq_getElem (by omega)]
    simp [Nat.min_eq_left (show n ≤ 8 by omega), Nat.mul_comm]

theorem runFor_zero (s : State) : runFor 0 s = .next s := rfl

/-- The first step of a run, then the rest of it. -/
theorem runFor_succ (n : Nat) (s : State) : runFor (n + 1) s =
    match step s with
    | .next t => runFor n t
    | .fault f => .fault f
    | .refused e => .refused e := rfl

theorem runFor_succ_of_next {s t : State} (n : Nat) (h : step s = .next t) : runFor (n + 1) s = runFor n t := by
  rw [runFor_succ, h]

end Sys2Proof.Machine
end

