-- ==== Sys2Proof/Laws/PerInstr.lean ====
section
/-! SUPPORT. For every instruction: the request it is encoded on selects an operation (30 R50), never a reserved code. -/

namespace Sys2Proof.Laws.OpSelect

open Sys2Proof Sys2Proof.Machine

/-- The encoded request carries one of the five operation codes. -/
def Statement (i : Instr) : Prop := Accepted (encode i)

theorem enc (val : Word) (cap : Nat) : Statement (.enc val cap) := by simp [Statement, encode, Request.ofOp]

theorem dec (len : Nat) (buf : Lanes) : Statement (.dec len buf) := by simp [Statement, encode, Request.ofOp]

theorem txt (val : Word) : Statement (.txt val) := by simp [Statement, encode, Request.ofOp]

theorem app (val : Word) (len : Nat) (buf : Lanes) : Statement (.app val len buf) := by
  simp [Statement, encode, Request.ofOp]

theorem trn (val : Word) (len : Nat) : Statement (.trn val len) := by simp [Statement, encode, Request.ofOp]

end Sys2Proof.Laws.OpSelect
end

