-- ==== Sys2Proof/Tests/Slice0.lean ====
section
/-! SUPPORT. The model's own tests. Expected results are the spec's (`95_test_vectors.md`; the tables X and V are named at
each), and each statement's hypotheses are met by a concrete state and operands. -/

namespace Sys2Proof.Tests

open Sys2Proof.Machine

/-! ### The parameters (00 R8, R9) and the width checks -/

theorem test_parameters_fit : Config.lengthClasses = 9 ∧ Config.txtLanes = 3 * Config.maxLen - 1 ∧
    Config.txtLanes < 2 ^ Config.tlenBits ∧ Config.maxLen < 2 ^ Config.lenBits ∧ 5 ≤ 2 ^ Config.opBits ∧
    3 ≤ 2 ^ Config.statusBits := by decide

theorem test_wellFormed_enc : (Instr.enc 1 16).wellFormed = false ∧ (Instr.enc 1 15).wellFormed = true := by decide

theorem test_wellFormed_dec : (Instr.dec 16 (Vector.replicate 8 0)).wellFormed = false := by decide

theorem test_wellFormed_app : (Instr.app 1 16 (Vector.replicate 8 0)).wellFormed = false := by decide

theorem test_wellFormed_trn : (Instr.trn 1 16).wellFormed = false := by decide

/-! ### Decoding: the words of the table of operation codes (30 R50), ports written out -/

theorem test_decode_enc : decode ⟨0b000, 257, Vector.replicate 8 0xFF, 15, 8⟩ = .ok (.enc 257 8) := rfl

theorem test_decode_dec : decode ⟨0b001, 9, #v[0xE7, 2, 0, 0, 0, 0, 0, 0], 2, 0⟩ =
    .ok (.dec 2 #v[0xE7, 2, 0, 0, 0, 0, 0, 0]) := rfl

theorem test_decode_txt : decode ⟨0b010, 258, Vector.replicate 8 0, 9, 0⟩ = .ok (.txt 258) := rfl

theorem test_decode_app : decode ⟨0b011, 1, #v[0x34, 0x12, 0, 0, 0, 0, 0, 0], 2, 0⟩ =
    .ok (.app 1 2 #v[0x34, 0x12, 0, 0, 0, 0, 0, 0]) := rfl

theorem test_decode_trn : decode ⟨0b100, 1258753, Vector.replicate 8 0xFF, 2, 0⟩ = .ok (.trn 1258753 2) := rfl

theorem test_decode_reserved : decode ⟨0b101, 1, Vector.replicate 8 0, 0, 0⟩ = .error (.reservedOp 5) := rfl

theorem test_table_words : (List.range 8).map (fun w => (decodeTableWord 8 w).isSome) =
    [true, true, true, true, true, false, false, false] := by decide

/-! ### The operations -/

/-- C2, V1, V3: 256 is the top of class 1, and one byte of capacity is enough. -/
theorem test_enc_class_top : exec (.enc 256 1) State.reset = .next ⟨[], [.bytes [0xFF]]⟩ := rfl

/-- V2. -/
theorem test_enc_eight_bytes : exec (.enc 81985529216486895 8) State.reset =
    .next ⟨[], [.bytes [0xEE, 0xCC, 0xAA, 0x88, 0x66, 0x44, 0x22, 0x00]]⟩ := rfl

/-- X7, C1, V4: the greatest valid pattern. -/
theorem test_dec_greatest : exec (.dec 8 (Vector.replicate 8 0xFE)) State.reset =
    .next ⟨[], [.value 18446744073709551615]⟩ := rfl

/-- V4: the least redundant pattern, whose wrapped sum is 0. -/
theorem test_dec_least_redundant : exec (.dec 8 #v[0xFF, 0xFE, 0xFE, 0xFE, 0xFE, 0xFE, 0xFE, 0xFE]) State.reset =
    .next ⟨[], [.error .invalidEncoding]⟩ := rfl

/-- V5: `EE CC AA`. -/
theorem test_txt_three_bytes : exec (.txt 11259375) State.reset =
    .next ⟨[], [.text [0x45, 0x45, 0x20, 0x43, 0x43, 0x20, 0x41, 0x41]]⟩ := rfl

/-- V5: `01 00`, least significant byte first. -/
theorem test_txt_byte_order : exec (.txt 258) State.reset =
    .next ⟨[], [.text [0x30, 0x31, 0x20, 0x30, 0x30]]⟩ := rfl

/-- V6. -/
theorem test_app_two_bytes : exec (.app 1 2 #v[0x34, 0x12, 0, 0, 0, 0, 0, 0]) State.reset =
    .next ⟨[], [.value 1258753]⟩ := rfl

/-- V6: appending reaches the least redundant pattern. -/
theorem test_app_redundant : exec (.app 72057594037927936 1 (Vector.replicate 8 0xFE)) State.reset =
    .next ⟨[], [.error .invalidEncoding]⟩ := rfl

/-- V7: the low byte survives. -/
theorem test_trn_keeps_low_byte : exec (.trn 258 1) State.reset = .next ⟨[], [.value 2]⟩ := rfl

/-- V7: more bytes than there are. -/
theorem test_trn_under_zero : exec (.trn 1258753 4) State.reset = .next ⟨[], [.error .invalidEncoding]⟩ := rfl

/-! ### A step, and the written forms (30 R54, P1, P2) -/

theorem test_step_table_word : step (State.reset.withFetchWord 8 1) = .next ⟨[], [.value 0]⟩ := rfl

theorem test_step_no_request : step State.reset = .refused .noRequest := rfl

theorem test_listing_request : instrListing (.dec 2 #v[0xE7, 2, 0, 0, 0, 0, 0, 0]) = "DEC len=2 buf=[E7 02]".toList := by
  decide

theorem test_listing_text : (Response.text (hexText [0xE7, 2])).listing = "OK rtlen=5 rtxt=\"E7 02\"".toList := by decide

theorem test_listing_error : (Response.error .bufferCapacity).listing = "BufferCapacityError".toList := by decide

/-! ### Witnesses: each statement's hypotheses are met -/

/-- BandLookupIsTheClassOfTheValue, EncLengthLaw: two values in order across a class boundary. -/
theorem witness_values_in_order : (256 : Word) ≤ 257 ∧ lenOf 256 = 1 ∧ lenOf 257 = 2 := by decide

/-- StoredValueFillsItsClass: a value of class 0. -/
theorem witness_class_zero : lenOf 0 = 0 := by decide

/-- EncodingIsABijection, EncLengthsAreDense, SumWeighsEachByteByItsPower: sequences of length 0 and 7, and of
length 8 on both sides of the bound. -/
theorem witness_sequences : ([] : List Byte).length ≤ 7 ∧ (List.replicate 7 (0xFF : Byte)).length = 7 ∧
    (List.replicate 8 (0xFE : Byte)).length = 8 ∧ byteSum (List.replicate 8 0xFE) = 0xFEFE_FEFE_FEFE_FEFE ∧
    byteSum [0xFF, 0xFE, 0xFE, 0xFE, 0xFE, 0xFE, 0xFE, 0xFE] = 0xFEFE_FEFE_FEFE_FEFF := by decide

/-- EncodingIsABijection: one byte list read at two lengths. -/
theorem witness_two_lengths : decValue (([0, 0] : List Byte).take 1) = .ok 1 ∧ decValue (([0, 0] : List Byte).take 2) = .ok 257 :=
  ⟨rfl, rfl⟩

/-- EncAnswersTheDigitsOfTheStoredValue, EncShortCapacityWritesNothing, TxtLaysOutTheHexDigits: the ends of the classes,
with the capacity equal to the length and one below it. -/
theorem witness_classes : InClass 0 0 ∧ InClass 1 1 ∧ InClass 256 1 ∧ InClass 257 2 ∧ InClass 72340172838076672 7 ∧
    InClass 72340172838076673 8 ∧ InClass 18446744073709551615 8 ∧ (2 ≤ 2 ∧ 1 < 2) := by decide

/-- EncNeverProducesARedundantPattern, EncLengthLaw: an answer of 8 bytes. -/
theorem witness_enc_eight_bytes : exec (.enc 18446744073709551615 15) State.reset =
    .next (State.reset.answer (.bytes (List.replicate 8 0xFE))) := rfl

/-- EncodeThenDecodeGivesTheValueBack: an `ENC` request and the `DEC` request of its answer. -/
theorem witness_round_trip : ∃ e d : Request, e.op = 0 ∧ e.val = 1000 ∧ e.cap = 8 ∧ d.op = 1 ∧ d.len.toNat = 2 ∧
    d.buf.toList.take 2 = [0xE7, 2] ∧ runFor 1 ⟨[e], []⟩ = .next ⟨[], [.bytes [0xE7, 2]]⟩ :=
  ⟨⟨0, 1000, Vector.replicate 8 0, 0, 8⟩, ⟨1, 0, #v[0xE7, 2, 9, 9, 9, 9, 9, 9], 2, 0⟩, rfl, rfl, rfl, rfl, rfl, rfl, rfl⟩

/-- DecBelowEightBytesAlwaysAnswers: the greatest length below 8, all lanes `FF` (V4). -/
theorem witness_dec_seven : 7 ≤ 7 ∧ exec (.dec 7 (Vector.replicate 8 0xFF)) State.reset =
    .next ⟨[], [.value 72340172838076672]⟩ := ⟨le_rfl, rfl⟩

/-- DecEightBytesIsWrapChecked, DecFailsForExactlyTwoClassesOfInput: sums on both sides of the bound. -/
theorem witness_dec_sums : laneSum (Vector.replicate 8 0xFE) 8 = 0xFEFE_FEFE_FEFE_FEFE ∧
    laneSum #v[0xFF, 0xFE, 0xFE, 0xFE, 0xFE, 0xFE, 0xFE, 0xFE] 8 = 0xFEFE_FEFE_FEFE_FEFF := by
  constructor <;> simp [laneSum, Finset.sum_range_succ]

/-- DecOverEightBytesIsAnError: the least and the greatest length above 8. -/
theorem witness_dec_over_eight : ∃ r q : Request, r.op = 1 ∧ r.len.toNat = 9 ∧ q.op = 1 ∧ q.len.toNat = 15 :=
  ⟨⟨1, 0, Vector.replicate 8 0, 9, 0⟩, ⟨1, 0, Vector.replicate 8 0, 15, 0⟩, rfl, rfl, rfl, rfl⟩

/-- DecThenEncGivesTheBytesBack: a decode that answers. -/
theorem witness_dec_answers : exec (.dec 2 #v[0xE7, 2, 9, 9, 9, 9, 9, 9]) State.reset =
    .next (State.reset.answer (.value 1000)) := rfl

/-- WrongLengthGivesAnotherValue: the bytes of 257 read one byte short and one byte long (70 R101), and a redundant reading at
length 8. -/
theorem witness_wrong_length : InClass 257 2 ∧
    (Vector.replicate 8 0 : Lanes).toList.take 2 = encBytes 257 ∧ 1 ≤ 8 ∧ 1 ≠ 2 ∧ 3 ≤ 8 ∧ 3 ≠ 2 ∧
    InClass 0 0 ∧ (Vector.replicate 8 0xFF : Lanes).toList.take 0 = encBytes 0 ∧ 8 ≠ 0 ∧
    decValue (readLanes (Vector.replicate 8 0xFF) 8) = .error .redundant :=
  ⟨by decide, rfl, by decide, by decide, by decide, by decide, by decide, rfl, by decide, rfl⟩

/-- TxtIsInjective: equal texts are those of equal values. -/
theorem witness_txt_equal : exec (.txt 258) State.reset = exec (.txt (257 + 1)) State.reset := rfl

/-- AppDecodesTheConcatenation: an `APP` request, and the `DEC` request of the concatenated bytes; one past 8 bytes; one with
no extra byte; one of value 0. -/
theorem witness_app : ∃ r d p z o : Request, r.op = 3 ∧ lenOf r.val + r.len.toNat ≤ 8 ∧ d.op = 1 ∧
    d.len.toNat = lenOf r.val + r.len.toNat ∧
    d.buf.toList.take d.len.toNat = encBytes r.val ++ r.buf.toList.take r.len.toNat ∧
    (p.op = 3 ∧ lenOf p.val + p.len.toNat = 9) ∧ (z.op = 3 ∧ z.len = 0) ∧ (o.op = 3 ∧ o.val = 0) :=
  ⟨⟨3, 1, #v[0x34, 0x12, 0, 0, 0, 0, 0, 0], 2, 0⟩, ⟨1, 0, #v[0, 0x34, 0x12, 0, 0, 0, 0, 0], 3, 0⟩,
    ⟨3, 1, Vector.replicate 8 0, 8, 0⟩, ⟨3, 5, Vector.replicate 8 0, 0, 0⟩, ⟨3, 0, Vector.replicate 8 0, 4, 0⟩,
    rfl, by decide, rfl, rfl, rfl, ⟨rfl, rfl⟩, ⟨rfl, rfl⟩, ⟨rfl, rfl⟩⟩

/-- AppClosedForm: lengths 7 and 8 in all, at 8 with a sum below `2^64` and one at `2^64` (V6: `FF`×7 with `FD`, and
`FF FE FE FE FE FE FE` with `FE`). -/
theorem witness_app_closed_form : InClass 1 1 ∧ 1 + 6 ≤ 7 ∧ InClass 72340172838076672 7 ∧ 7 + 1 ≤ 8 ∧
    (256 ^ 8 - 1) / 255 + (72340172838076672 - (256 ^ 7 - 1) / 255) + 256 ^ 7 * 0xFD < 2 ^ 64 ∧
    InClass 72057594037927936 7 ∧
    (256 ^ 8 - 1) / 255 + (72057594037927936 - (256 ^ 7 - 1) / 255) + 256 ^ 7 * 0xFE = 2 ^ 64 := by decide

/-- AppAndTrnLengthErrors: one byte too many, for each operation. -/
theorem witness_length_errors : InClass 1 1 ∧ 8 < 1 + 8 ∧ 1 < 2 := by decide

/-- TrnDecodesTheRemainder: a `TRN` request and the `DEC` request of the remainder; one with nothing removed, one with
everything removed, one of 0, one that removes too much. -/
theorem witness_trn : ∃ r d k e z u : Request, r.op = 4 ∧ r.len.toNat ≤ lenOf r.val ∧ d.op = 1 ∧
    d.len.toNat = lenOf r.val - r.len.toNat ∧
    d.buf.toList.take d.len.toNat = (encBytes r.val).take (lenOf r.val - r.len.toNat) ∧
    (k.op = 4 ∧ k.len = 0) ∧ (e.op = 4 ∧ e.len.toNat = lenOf e.val) ∧ (z.op = 4 ∧ z.val = 0 ∧ z.len ≠ 0) ∧
    (u.op = 4 ∧ u.len.toNat = lenOf u.val + 1) :=
  ⟨⟨4, 258, Vector.replicate 8 0, 1, 0⟩, ⟨1, 0, #v[1, 0, 0, 0, 0, 0, 0, 0], 1, 0⟩, ⟨4, 258, Vector.replicate 8 0, 0, 0⟩,
    ⟨4, 258, Vector.replicate 8 0, 2, 0⟩, ⟨4, 0, Vector.replicate 8 0, 1, 0⟩, ⟨4, 258, Vector.replicate 8 0, 3, 0⟩,
    rfl, by decide, rfl, rfl, rfl, ⟨rfl, rfl⟩, ⟨rfl, rfl⟩, ⟨rfl, rfl, by decide⟩, ⟨rfl, rfl⟩⟩

/-- TrnClosedForm: nothing removed, and everything. -/
theorem witness_trn_closed_form : InClass 18446744073709551615 8 ∧ 0 ≤ 8 ∧ 8 ≤ 8 := by decide

/-- TruncateUndoesAppend: an append that answers at total length 8, and one with total length 7. -/
theorem witness_append_answers : exec (.app 72340172838076672 1 (Vector.replicate 8 0xFD)) State.reset =
    .next (State.reset.answer (.value 18374969058471772416)) ∧ lenOf 1 + 6 ≤ 7 :=
  ⟨rfl, by decide⟩

/-- TruncateUndoesAppend (P3): a truncation that answers, and an append of the byte removed, which gives the value back. -/
theorem witness_append_after_truncate : exec (.trn 1258753 1) State.reset = .next (State.reset.answer (.value 13569)) ∧
    exec (.app 13569 1 #v[0x12, 0, 0, 0, 0, 0, 0, 0]) State.reset = .next (State.reset.answer (.value 1258753)) ∧
    readLanes #v[0x12, 0, 0, 0, 0, 0, 0, 0] 1 = (encBytes 1258753).drop (lenOf 1258753 - 1) := ⟨rfl, rfl, rfl⟩

/-- ResponsesCarryExactlyTheirValidFields: each operation with status 0, and `ENC`, `DEC`, `APP`, `TRN` with an error. -/
theorem witness_response_fields :
    exec (.enc 257 2) State.reset = .next ⟨[], [.bytes [0, 0]]⟩ ∧
    exec (.enc 257 1) State.reset = .next ⟨[], [.error .bufferCapacity]⟩ ∧
    exec (.dec 1 (Vector.replicate 8 0)) State.reset = .next ⟨[], [.value 1]⟩ ∧
    exec (.dec 9 (Vector.replicate 8 0)) State.reset = .next ⟨[], [.error .invalidEncoding]⟩ ∧
    exec (.txt 1) State.reset = .next ⟨[], [.text [0x30, 0x30]]⟩ ∧
    exec (.app 1 1 (Vector.replicate 8 0)) State.reset = .next ⟨[], [.value 257]⟩ ∧
    exec (.app 1 8 (Vector.replicate 8 0)) State.reset = .next ⟨[], [.error .invalidEncoding]⟩ ∧
    exec (.trn 1 1) State.reset = .next ⟨[], [.value 0]⟩ ∧
    exec (.trn 1 2) State.reset = .next ⟨[], [.error .invalidEncoding]⟩ := ⟨rfl, rfl, rfl, rfl, rfl, rfl, rfl, rfl, rfl⟩

/-- IgnoredFieldsDoNotMatter (V9): for each code, two requests that differ in every field the operation does not read. -/
theorem witness_ignored_fields :
    ∃ f g : BitVec 3 → Request, ∀ o, o.toNat < 5 → (f o).op = o ∧ (g o).op = o ∧ Accepted (f o) ∧
      (o = 0 → (f o).val = (g o).val ∧ (f o).cap = (g o).cap ∧ (f o).len ≠ (g o).len ∧ (f o).buf ≠ (g o).buf) ∧
      (o = 1 → (f o).len = (g o).len ∧ (f o).buf.toList.take (f o).len.toNat = (g o).buf.toList.take (f o).len.toNat ∧
        (f o).buf ≠ (g o).buf ∧ (f o).val ≠ (g o).val) ∧
      (o = 2 → (f o).val = (g o).val ∧ (f o).len ≠ (g o).len) ∧
      (o = 3 → (f o).val = (g o).val ∧ (f o).len = (g o).len ∧
        (f o).buf.toList.take (f o).len.toNat = (g o).buf.toList.take (f o).len.toNat ∧ (f o).cap ≠ (g o).cap) ∧
      (o = 4 → (f o).val = (g o).val ∧ (f o).len = (g o).len ∧ (f o).cap ≠ (g o).cap) :=
  ⟨fun o => ⟨o, 257, Vector.replicate 8 0, if o = 0 then 15 else 1, if o = 0 then 8 else 0⟩,
    fun o => ⟨o, if o = 1 then 0 else 257, #v[0, 9, 9, 9, 9, 9, 9, 9], if o = 0 ∨ o = 2 then 0 else 1, 8⟩, by decide⟩

/-- AFailingRequestDisturbsNoOther (P2): a request answered with an error, and a run of the one after it. -/
theorem witness_failing_request : ∃ r q : Request,
    step ⟨[r, q], []⟩ = .next (State.answer ⟨[q], []⟩ (.error .bufferCapacity)) ∧
    runFor 1 ⟨[q], []⟩ = .next (State.answer ⟨[], []⟩ (.bytes [0, 0, 0])) :=
  ⟨⟨0, 65793, Vector.replicate 8 0, 0, 2⟩, ⟨0, 65793, Vector.replicate 8 0, 0, 3⟩, rfl, rfl⟩

/-- StepRunsTheDecodedRequest, EveryStepKeepsResponsesLegal: a state with a request that decodes, and its step. -/
theorem witness_step : ∃ s : State, ∃ r i, s.Inv ∧ s.requests = r :: [] ∧ decode r = .ok i ∧
    step s = .next ⟨[], [.text [], .value 1]⟩ :=
  ⟨⟨[⟨4, 257, Vector.replicate 8 0, 1, 0⟩], [.text []]⟩, _, _, by simp [State.Inv, Response.Legal], rfl, rfl, rfl⟩

/-- StepRefusesExactlyTheReservedCodes: the codes on both sides (V8). -/
theorem witness_codes : 5 ≤ (5 : BitVec 3).toNat ∧ (4 : BitVec 3).toNat < 5 := by decide

/-- EveryRequestGetsItsStandAloneResponse: a list of accepted requests. -/
theorem witness_accepted : ∀ r ∈ [Request.ofOp 0, Request.ofOp 4, Request.ofOp 2], Accepted r := by decide

/-- DecodeAndEncodeAgree: well-formed operations at the ends of the counts, and a request that decodes. -/
theorem witness_wellFormed : (Instr.enc 1 15).wellFormed = true ∧ (Instr.dec 0 (Vector.replicate 8 1)).wellFormed = true ∧
    (Instr.txt 7).wellFormed = true ∧ (Instr.app 1 15 (Vector.replicate 8 1)).wellFormed = true ∧
    (Instr.trn 1 15).wellFormed = true ∧ decodeTableWord 8 2 = some (.txt 0) := by decide

end Sys2Proof.Tests
end

section
/-! The Encoding (30 R41, R42, R43, R45): a stored value and the class it fills, the sum of the bytes, and the bijection
between values and the byte sequences that decode. -/

namespace Sys2Proof.Machine

/-! ### Classes and decoding -/

/-- A value lies in exactly one class (30 R45 (d)). -/
theorem existsUnique_inClass (v : Word) : ∃! n, InClass v n :=
  ⟨lenOf v, inClass_lenOf v, fun _ h => (lenOf_of_inClass h).symm⟩

/-- A decoded value lies in the class its number of bytes names. -/
theorem inClass_of_decValue {s : List Byte} {v : Word} (h : decValue s = .ok v) : InClass v s.length :=
  lenOf_of_decValue h ▸ inClass_lenOf v

/-- An 8-byte sequence decodes exactly when adding `R(8)` to its sum stays below `2^64` (30 R44). -/
theorem exists_decValue_iff_of_length_eq_eight {s : List Byte} (h : s.length = 8) :
    (∃ v, decValue s = .ok v) ↔ byteSum s ≤ 0xFEFE_FEFE_FEFE_FEFE := by
  obtain ⟨h8, -⟩ | ⟨-, hwrap, herr⟩ | ⟨-, t, ht, hok⟩ := decValue_cases s
  · omega
  · simp only [herr, reduceCtorEq, exists_false, false_iff]
    omega
  · have := t.isLt
    rw [h] at ht
    exact ⟨fun _ => by omega, fun _ => ⟨t, hok⟩⟩

/-- Two decodes of one list, cut at different lengths, give different values (30 R45 (e)). -/
theorem ne_of_decValue_take {s : List Byte} {m n : Nat} {v w : Word} (hm : m ≤ s.length) (hn : n ≤ s.length)
    (hne : m ≠ n) (hv : decValue (s.take m) = .ok v) (hw : decValue (s.take n) = .ok w) : v ≠ w := by
  rintro rfl
  have h : (s.take m).length = (s.take n).length := (lenOf_of_decValue hv).symm.trans (lenOf_of_decValue hw)
  simp only [List.length_take, Nat.min_eq_left hm, Nat.min_eq_left hn] at h
  exact hne h

/-- Settles O5: a sequence decodes to `v` exactly when it is the Encoding of `v`, so each part is a statement about which
sequences decode and about the class of the value. -/
theorem encodingIsABijection : Obligations.EncodingIsABijection := by
  refine ⟨fun v => ⟨decValue_encBytes v, fun s h => (encBytes_of_decValue h).symm⟩, fun s hs => ?_,
    fun s hs => ⟨exists_decValue_iff_of_length_eq_eight hs, fun v h => ?_⟩, fun v n h => ?_, fun s t v hs ht => ?_,
    existsUnique_inClass, fun s m n v w => ne_of_decValue_take⟩
  · obtain ⟨v, h⟩ := decValue_total (Nat.lt_succ_of_le hs)
    exact ⟨v, inClass_of_decValue h, h, encBytes_of_decValue h⟩
  · exact ⟨hs ▸ inClass_of_decValue h, encBytes_of_decValue h⟩
  · exact ⟨encBytes v, (encBytes_length v).trans (lenOf_of_inClass h), decValue_encBytes v⟩
  · exact (encBytes_of_decValue hs).symm.trans (encBytes_of_decValue ht)

/-! ### Stored values -/

/-- The stored values of class `n`: the numbers of `n` bytes that stay below `2^64` when `R(n)` is added (30 R41). -/
theorem exists_stored_iff {n : Nat} (hn : n ≤ 8) (x : Nat) :
    (∃ v, lenOf v = n ∧ (stored v).toNat = x) ↔ x < 256 ^ n ∧ (256 ^ n - 1) / 255 + x < 2 ^ 64 := by
  constructor
  · rintro ⟨v, rfl, rfl⟩
    have := R_lenOf_le v
    have := v.isLt
    exact ⟨stored_lt v, by rw [stored_toNat]; omega⟩
  · rintro ⟨hx, h64⟩
    have hv : (BitVec.ofNat 64 ((256 ^ n - 1) / 255 + x)).toNat = (256 ^ n - 1) / 255 + x :=
      BitVec.toNat_ofNat .. ▸ Nat.mod_eq_of_lt h64
    have hlen : lenOf (BitVec.ofNat 64 ((256 ^ n - 1) / 255 + x)) = n := by
      rw [lenOf_eq_iff hn, hv, repunit_succ]
      exact ⟨Nat.le_add_right _ _, fun _ => Nat.add_lt_add_left hx _⟩
    exact ⟨_, hlen, by rw [stored_toNat, hlen, hv, Nat.add_sub_cancel_left]⟩

/-- Below class 8 no sum with a band constant reaches `2^64`: `R(n) + 256^n` is a band constant itself. -/
theorem repunit_add_lt {n x : Nat} (hn : n ≤ 7) (hx : x < 256 ^ n) : (256 ^ n - 1) / 255 + x < 2 ^ 64 := by
  have hsucc := repunit_succ n
  have hmono := repunit_mono (show n + 1 ≤ 8 by omega)
  norm_num at hmono
  omega

/-- Settles O3: the subtraction is exact, and the range on each class is that of `exists_stored_iff`. -/
theorem storedValueFillsItsClass : Obligations.StoredValueFillsItsClass := by
  refine ⟨fun v => ?_, fun n hn x => ?_, fun x => ?_, fun v h => ?_⟩
  · have hR := toNat_R (lenOf_le v)
    exact ⟨BitVec.le_def.mpr (hR ▸ R_lenOf_le v), rfl, hR ▸ stored_toNat v⟩
  · have hpos : 0 < 256 ^ n := by positivity
    rw [exists_stored_iff (by omega)]
    refine ⟨fun h => Nat.le_sub_one_of_lt h.1, fun h => ?_⟩
    have hx := Nat.lt_of_le_sub_one hpos h
    exact ⟨hx, repunit_add_lt hn hx⟩
  · rw [exists_stored_iff le_rfl]
    omega
  · have hlt := stored_lt v
    rw [h, pow_zero, Nat.lt_one_iff] at hlt
    exact ⟨BitVec.eq_of_toNat_eq hlt, List.eq_nil_of_length_eq_zero ((encBytes_length v).trans h)⟩

/-! ### The sum of the bytes -/

/-- `Sum` as the spec writes it: each byte times the power of its index (30 R43). -/
theorem byteSum_eq_sum (s : List Byte) : byteSum s = ∑ i : Fin s.length, s[i].toNat * 256 ^ i.val := by
  induction s with
  | nil => rfl
  | cons b s ih =>
    rw [byteSum_cons, ih, Finset.mul_sum]
    refine Eq.trans ?_ (Fin.sum_univ_succ _).symm
    congr 1
    · simp
    · refine Finset.sum_congr rfl fun i _ => ?_
      simp only [Fin.getElem_fin, Fin.val_succ, List.getElem_cons_succ, pow_succ]
      ring

/-- Settles O4: the weighted sum by induction on the bytes; the bounds are those of a number of `n` bytes. -/
theorem sumWeighsEachByteByItsPower : Obligations.SumWeighsEachByteByItsPower := by
  refine ⟨fun s hs => ⟨byteSum_eq_sum s, Nat.le_sub_one_of_lt (byteSum_lt s), ?_⟩, byteSum_nil,
    fun buf n hn => (laneSum_eq buf hn).symm⟩
  calc byteSum s < 256 ^ s.length := byteSum_lt s
    _ ≤ 256 ^ 8 := Nat.pow_le_pow_right (by norm_num) hs
    _ = 2 ^ 64 := by norm_num

/-! ### `ENC` -/

/-- The Encoding is the digits of the stored value, `v - R(n)` (30 R42). -/
theorem encBytes_eq_digitBytes (v : Word) :
    encBytes v = digitBytes (v.toNat - (256 ^ lenOf v - 1) / 255) (lenOf v) := by
  rw [← stored_toNat, digitBytes_toNat, encBytes]

/-- With room for the Encoding, `ENC` delivers it (40 R55). -/
theorem exec_enc_of_lenOf_le {v : Word} {cap : Nat} (h : lenOf v ≤ cap) (s : State) :
    exec (.enc v cap) s = .next (s.answer (.bytes (encBytes v))) := by
  rw [exec, execEnc_eq, if_neg (Nat.not_lt.mpr h), deliver_eq]

/-- Settles O6: the class is the length, and the Encoding is the digits of the stored value. -/
theorem encAnswersTheDigitsOfTheStoredValue : Obligations.EncAnswersTheDigitsOfTheStoredValue := by
  intro v n cap s hv hcap
  obtain rfl := lenOf_of_inClass hv
  rw [← encBytes_eq_digitBytes]
  refine ⟨rfl, ?_, exec_enc_of_lenOf_le hcap s⟩
  rintro rfl
  rfl

end Sys2Proof.Machine
end

section
/-! `ENC` (40): the bytes it answers are the Encoding of the value (R57, R58), a `DEC` of them gives the value back (R59), and
they are the byte sequences that decode, each for one value (R60). -/

namespace Sys2Proof.Machine

/-! ### What an answered `ENC` has answered -/

/-- An `ENC` that answers some bytes has answered the Encoding, whatever the capacity and the state (40 R55). -/
theorem eq_encBytes_of_exec_enc {v : Word} {cap : Nat} {s t : State} {b : List Byte}
    (ht : exec (.enc v cap) s = .next t) (hb : t.responses = s.responses ++ [.bytes b]) : b = encBytes v := by
  rw [exec, execEnc_eq, deliver_next_iff] at ht
  obtain rfl := ht
  rw [State.responses_answer, List.append_cancel_left_eq, List.cons.injEq] at hb
  obtain ⟨hresp, -⟩ := hb
  split at hresp
  · cases hresp
  · exact (Response.bytes.inj hresp).symm

/-- Settles O8: the bytes are the Encoding, which spells the stored value of class 8. -/
theorem encNeverProducesARedundantPattern : Obligations.EncNeverProducesARedundantPattern := by
  intro v cap s t b ht hb h8
  obtain rfl := eq_encBytes_of_exec_enc ht hb
  have hlen : lenOf v = 8 := (encBytes_length v).symm.trans h8
  refine ⟨?_, byteSum_encBytes_le hlen⟩
  rw [byteSum_encBytes, stored_toNat, hlen, toNat_R le_rfl]

/-! ### The length law -/

/-- `Len` does not decrease (30 R40). -/
theorem lenOf_mono {v w : Word} (h : v ≤ w) : lenOf v ≤ lenOf w := by
  by_contra hlt
  have hw := lenOf_le v
  have hv := R_lenOf_le v
  have hnext := lt_R_lenOf_succ (v := w) (by omega)
  have hbands := repunit_mono (show lenOf w + 1 ≤ lenOf v by omega)
  have hvw : v.toNat ≤ w.toNat := BitVec.le_def.mp h
  omega

/-- `R(n)` is the least value of class `n`. -/
theorem lenOf_R {n : Nat} (h : n ≤ 8) : lenOf (R n) = n := by
  rw [lenOf_eq_iff h, toNat_R h, repunit_succ]
  exact ⟨le_rfl, fun _ => Nat.lt_add_of_pos_right (by positivity)⟩

/-- The value just below `R(n+1)` is the greatest of class `n`. -/
theorem lenOf_R_succ_sub_one {n : Nat} (h : n < 8) : lenOf (R (n + 1) - 1) = n := by
  have hsucc : (R (n + 1)).toNat = (256 ^ n - 1) / 255 + 256 ^ n := (toNat_R h).trans (repunit_succ n)
  have hpos : 0 < 256 ^ n := by positivity
  have hpred : (R (n + 1) - 1).toNat = (R (n + 1)).toNat - 1 :=
    sub64_toNat (show (1 : Word).toNat ≤ _ by rw [hsucc]; exact Nat.le_add_left_of_le hpos)
  rw [lenOf_eq_iff h.le, hpred, hsucc, repunit_succ]
  omega

/-- Settles O9: the bytes are the Encoding, `Len(v)` of them; each `R(n)` is the first value of its class. -/
theorem encLengthLaw : Obligations.EncLengthLaw := by
  refine ⟨fun v cap s t b ht hb => ?_, fun v w => lenOf_mono, fun n => ⟨?_, fun h => ⟨R n, lenOf_R h⟩⟩,
    fun n h1 h8 => ⟨?_, lenOf_R h8⟩⟩
  · rw [eq_encBytes_of_exec_enc ht hb, encBytes_length]
  · rintro ⟨v, rfl⟩
    exact lenOf_le v
  · obtain ⟨m, rfl⟩ := Nat.exists_eq_add_of_le' h1
    exact lenOf_R_succ_sub_one h8

/-! ### The round trip -/

/-- A step on an `ENC` request (30 R50). -/
theorem step_enc {r : Request} (h : r.op = 0) (rest : List Request) (out : List Response) :
    step ⟨r :: rest, out⟩ = exec (.enc r.val r.cap.toNat) ⟨rest, out⟩ := by
  rw [step_cons, decode_enc h]

/-- A step on a `DEC` request (30 R50). -/
theorem step_dec {r : Request} (h : r.op = 1) (rest : List Request) (out : List Response) :
    step ⟨r :: rest, out⟩ = exec (.dec r.len.toNat r.buf) ⟨rest, out⟩ := by
  rw [step_cons, decode_dec h]

/-- `DEC` of lanes that hold the Encoding of a value, at its length, delivers the value (41 R61). -/
theorem exec_dec_of_readLanes_eq_encBytes {v : Word} {buf : Lanes} (h : readLanes buf (lenOf v) = encBytes v) (s : State) :
    exec (.dec (lenOf v) buf) s = .next (s.answer (.value v)) := by
  rw [exec, execDec_eq, if_neg (Nat.not_lt.mpr (lenOf_le v)), h, decValue_encBytes]
  rfl

/-- The Encoding of the greatest value is the greatest pattern that is not redundant (30 R44). -/
theorem encBytes_allOnes : encBytes 0xFFFF_FFFF_FFFF_FFFF = List.replicate 8 0xFE := by
  decide

/-- Settles O10: the first step delivers the Encoding, and the second decodes it. -/
theorem encodeThenDecodeGivesTheValueBack : Obligations.EncodeThenDecodeGivesTheValueBack := by
  refine ⟨?_, fun s => encBytes_allOnes ▸ exec_enc_of_lenOf_le (lenOf_le _) s⟩
  rintro v e d out hop rfl hcap
  have henc (rest : List Request) : step ⟨e :: rest, out⟩ = .next (State.answer ⟨rest, out⟩ (.bytes (encBytes e.val))) := by
    rw [step_enc hop, hcap]
    exact exec_enc_of_lenOf_le (lenOf_le _) _
  refine ⟨encBytes e.val, by rw [runFor_succ_of_next 0 (henc []), runFor_zero], fun hd hlen hbuf => ?_⟩
  rw [encBytes_length] at hlen hbuf
  have hdec : step (State.answer ⟨[d], out⟩ (.bytes (encBytes e.val))) =
      .next ((State.answer ⟨[], out⟩ (.bytes (encBytes e.val))).answer (.value e.val)) := by
    rw [State.answer_mk, step_dec hd, hlen]
    exact exec_dec_of_readLanes_eq_encBytes hbuf _
  rw [runFor_succ_of_next 1 (henc [d]), runFor_succ_of_next 0 hdec, runFor_zero]

/-! ### Every pattern is used -/

/-- With capacity 8, `ENC` of `v` answers exactly the bytes that decode to `v`, in every state (30 R45, 40 R60). -/
theorem exec_enc_eight_iff {v : Word} {b : List Byte} {s : State} :
    exec (.enc v 8) s = .next (s.answer (.bytes b)) ↔ decValue b = .ok v := by
  rw [exec_enc_of_lenOf_le (lenOf_le v), Host.Outcome.next.injEq, State.answer_inj, Response.bytes.injEq,
    decValue_ok_iff_encBytes]

/-- A pattern is answered for a value of the class of its length, in every state, exactly when it decodes to that value. -/
theorem inClass_and_exec_enc_eight_iff {v : Word} {b : List Byte} :
    (InClass v b.length ∧ ∀ s, exec (.enc v 8) s = .next (s.answer (.bytes b))) ↔ decValue b = .ok v := by
  simp only [exec_enc_eight_iff]
  exact ⟨fun ⟨_, h⟩ => h State.reset, fun h => ⟨inClass_of_decValue h, fun _ => h⟩⟩

/-- Settles O11: a pattern is answered for exactly the values it decodes to, at most one; below 8 bytes every pattern decodes,
and at 8 bytes those that are not redundant do. -/
theorem encLengthsAreDense : Obligations.EncLengthsAreDense := by
  refine ⟨fun b hb => ?_, fun b hb => ⟨?_, fun v w s hv hw => ?_⟩⟩
  · simp only [inClass_and_exec_enc_eight_iff]
    obtain ⟨v, hv⟩ := decValue_total (Nat.lt_succ_of_le hb)
    exact ⟨v, hv, fun w hw => Except.ok.inj (hw.symm.trans hv)⟩
  · rw [← exists_decValue_iff_of_length_eq_eight hb]
    simp only [← inClass_and_exec_enc_eight_iff, hb]
  · exact Except.ok.inj ((exec_enc_eight_iff.mp hv).symm.trans (exec_enc_eight_iff.mp hw))

end Sys2Proof.Machine
end

section
/-! `DEC` (41): below 8 bytes it always answers, with a value of the class of its length (R65), and above 8 bytes it never does
(R66). -/

namespace Sys2Proof.Machine

/-- `DEC` of lanes that decode delivers their value (41 R61). -/
theorem exec_dec_of_decValue {n : Nat} {buf : Lanes} {w : Word} (hn : n ≤ 8) (h : decValue (readLanes buf n) = .ok w)
    (s : State) : exec (.dec n buf) s = .next (s.answer (.value w)) := by
  rw [exec, execDec_eq, if_neg (Nat.not_lt.mpr hn), h]
  rfl

/-- Above 8 bytes `DEC` raises `InvalidEncodingError`, whatever the lanes hold (41 R66). -/
theorem exec_dec_of_eight_lt {n : Nat} (h : 8 < n) (buf : Lanes) (s : State) :
    exec (.dec n buf) s = .next (s.answer (.error .invalidEncoding)) := by
  rw [exec, execDec_eq, if_pos h, deliver_eq]

/-- Settles O12: fewer than 8 lanes always decode, to `R(n)` plus their sum, a value of class `n`. -/
theorem decBelowEightBytesAlwaysAnswers : Obligations.DecBelowEightBytesAlwaysAnswers := by
  intro n buf s hn
  have hlen : (readLanes buf n).length = n := (readLanes_length buf n).trans (by omega)
  obtain ⟨w, hw⟩ := decValue_total (s := readLanes buf n) (by omega)
  have hval := (decValue_ok_iff.mp hw).2
  obtain ⟨-, hlow, hhigh⟩ := inClass_of_decValue hw
  rw [hlen] at hval hlow hhigh
  refine ⟨w, exec_dec_of_decValue (by omega) hw s, ?_, ?_, ?_, (lenOf_of_decValue hw).trans hlen⟩
  · rw [hval, laneSum_eq buf (by omega)]
  · rwa [toNat_R (by omega)]
  · rw [toNat_R (by omega)]
    exact Nat.le_sub_one_of_lt (hhigh (by omega))

/-- Settles O15: both requests run `DEC` with the same length above 8, which answers the error for every buffer. -/
theorem decOverEightBytesIsAnError : Obligations.DecOverEightBytesIsAnError := by
  intro r rest out buf hop hlen
  have hstep (q : Request) (hq : q.op = 1) (hl : 8 < q.len.toNat) :
      step ⟨q :: rest, out⟩ = .next (State.answer ⟨rest, out⟩ (.error .invalidEncoding)) := by
    rw [step_dec hq, exec_dec_of_eight_lt hl]
  exact ⟨hstep r hop hlen, (hstep { r with buf := buf } hop hlen).trans (hstep r hop hlen).symm⟩

end Sys2Proof.Machine
end

section
/-! `APP` and `TRN` (43): when each answers a value, and how far one undoes the other (R81). -/

namespace Sys2Proof.Machine

/-! ### When an edit answers a value -/

/-- A decode behind a length check answers a value exactly when the check passes and the decode gives that value. -/
theorem ite_error_responseOf_eq_value_iff {p : Prop} [Decidable p] {e : ErrorKind} {d : Except Cause Word} {w : Word} :
    (if p then .error e else responseOf d) = Response.value w ↔ ¬p ∧ d = .ok w := by
  split
  case isTrue hp => simp [hp]
  case isFalse hp => cases d <;> simp [hp, responseOf]

/-- `APP` answers `w` exactly when the bytes fit and the Encoding of `w` is the concatenation (43 R73, R74). -/
theorem exec_app_value_iff {v w : Word} {k : Nat} {buf : Lanes} {s : State} :
    exec (.app v k buf) s = .next (s.answer (.value w)) ↔
      lenOf v + k ≤ 8 ∧ encBytes w = encBytes v ++ readLanes buf k := by
  rw [exec, execApp_eq, deliver_eq, Host.Outcome.next.injEq, State.answer_inj, ite_error_responseOf_eq_value_iff,
    Nat.not_lt, decValue_ok_iff_encBytes]

/-- `TRN` answers `w` exactly when there are bytes enough and the Encoding of `w` is the remainder (43 R78, R79). -/
theorem exec_trn_value_iff {v w : Word} {c : Nat} {s : State} :
    exec (.trn v c) s = .next (s.answer (.value w)) ↔
      c ≤ lenOf v ∧ encBytes w = (encBytes v).take (lenOf v - c) := by
  rw [exec, execTrn_eq, deliver_eq, Host.Outcome.next.injEq, State.answer_inj, ite_error_responseOf_eq_value_iff,
    Nat.not_lt, decValue_ok_iff_encBytes]

/-! ### How far one undoes the other -/

/-- `TRN` removes the bytes an `APP` that answers has appended (43 R81). -/
theorem exec_trn_of_exec_app {v w : Word} {k : Nat} {buf : Lanes} {s : State}
    (h : exec (.app v k buf) s = .next (s.answer (.value w))) : exec (.trn w k) s = .next (s.answer (.value v)) := by
  obtain ⟨hlen, hw⟩ := exec_app_value_iff.mp h
  have hlenw : lenOf w = lenOf v + k := by
    rw [← encBytes_length, hw, List.length_append, encBytes_length, readLanes_length]
    omega
  refine exec_trn_value_iff.mpr ⟨by omega, ?_⟩
  rw [hw, hlenw, Nat.add_sub_cancel, List.take_left' (encBytes_length v)]

/-- Up to 7 bytes in all `APP` answers, for every decode below 8 bytes does (41 R65, 43 R81). -/
theorem exists_exec_app_value {v : Word} {k : Nat} (h : lenOf v + k ≤ 7) (buf : Lanes) (s : State) :
    ∃ w, exec (.app v k buf) s = .next (s.answer (.value w)) := by
  have hlen : (encBytes v ++ readLanes buf k).length < 8 := by
    rw [List.length_append, encBytes_length, readLanes_length]
    omega
  obtain ⟨w, hw⟩ := decValue_total hlen
  exact ⟨w, exec_app_value_iff.mpr ⟨by omega, encBytes_of_decValue hw⟩⟩

/-- Truncating the last byte of 257, `00 00`, and appending `01` gives 513: `APP` does not undo `TRN` (43 R81). -/
theorem append_after_truncate_ne (s : State) : exec (.trn 257 1) s = .next (s.answer (.value 1)) ∧
    exec (.app 1 1 #v[1, 0, 0, 0, 0, 0, 0, 0]) s = .next (s.answer (.value 513)) :=
  ⟨rfl, rfl⟩

/-- After a `TRN` that answers, `APP` gives the value back exactly when it appends the bytes removed (43 R81). -/
theorem exec_app_of_exec_trn_iff {v w : Word} {c : Nat} {buf : Lanes} {s : State}
    (h : exec (.trn v c) s = .next (s.answer (.value w))) :
    exec (.app w c buf) s = .next (s.answer (.value v)) ↔ readLanes buf c = (encBytes v).drop (lenOf v - c) := by
  obtain ⟨hc, hw⟩ := exec_trn_value_iff.mp h
  have hfits : lenOf w + c ≤ 8 := by
    have hv := lenOf_le v
    rw [← encBytes_length w, hw, List.length_take, encBytes_length]
    omega
  calc exec (.app w c buf) s = .next (s.answer (.value v))
      ↔ encBytes v = encBytes w ++ readLanes buf c := by rw [exec_app_value_iff, and_iff_right hfits]
    _ ↔ (encBytes v).take (lenOf v - c) ++ (encBytes v).drop (lenOf v - c) =
          (encBytes v).take (lenOf v - c) ++ readLanes buf c := by rw [hw, List.take_append_drop]
    _ ↔ readLanes buf c = (encBytes v).drop (lenOf v - c) := by rw [List.append_cancel_left_eq, eq_comm]

/-- Settles O25: an edit answers `w` exactly when the edited bytes are the Encoding of `w`, so each part is a statement about
cutting and joining byte lists; 257 is the counterexample to the other direction. -/
theorem truncateUndoesAppend : Obligations.TruncateUndoesAppend :=
  ⟨fun _ _ _ _ _ => exec_trn_of_exec_app, fun _ _ buf s h => exists_exec_app_value h buf s,
    ⟨257, 1, 513, 1, _, by decide, append_after_truncate_ne⟩, fun _ _ _ _ _ => exec_app_of_exec_trn_iff⟩

end Sys2Proof.Machine
end

section
/-! What every operation delivers: one response, a function of the operation alone (20 R33), and always a legal one
(10 R21, 40 R57, 42 R68–R71). -/

namespace Sys2Proof.Machine

/-! ### The response of an operation -/

/-- The response an operation gets, whatever the state (10 R13). -/
def responseTo : Instr → Response
  | .enc val cap => if cap < lenOf val then .error .bufferCapacity else .bytes (encBytes val)
  | .dec len buf => if 8 < len then .error .invalidEncoding else responseOf (decValue (readLanes buf len))
  | .txt val => .text (hexText (encBytes val))
  | .app val len buf =>
    if 8 < lenOf val + len then .error .invalidEncoding else responseOf (decValue (encBytes val ++ readLanes buf len))
  | .trn val len =>
    if lenOf val < len then .error .invalidEncoding else responseOf (decValue ((encBytes val).take (lenOf val - len)))

/-- The meaning of every operation: it delivers its response (20 R33). -/
theorem exec_eq (i : Instr) (s : State) : exec i s = .next (s.answer (responseTo i)) := by
  cases i with
  | enc val cap => exact execEnc_eq val cap s
  | dec len buf => exact execDec_eq len buf s
  | txt val => exact execTxt_eq val s
  | app val len buf => exact execApp_eq val len buf s
  | trn val len => exact execTrn_eq val len s

/-- Settles O31: the response is `responseTo` of the operation. -/
theorem execAddsOneResponseAndNothingElse : Obligations.ExecAddsOneResponseAndNothingElse :=
  ⟨responseTo, exec_eq⟩

/-! ### Legal responses -/

/-- A decode delivers a value or an error. -/
theorem legal_responseOf (d : Except Cause Word) : (responseOf d).Legal := by
  cases d <;> trivial

/-- An Encoding fits its lanes and is not redundant (10 R21, 40 R57). -/
theorem legal_bytes_encBytes (v : Word) : (Response.bytes (encBytes v)).Legal :=
  ⟨(encBytes_length v).trans_le (lenOf_le v), fun h => byteSum_encBytes_le ((encBytes_length v).symm.trans h)⟩

/-- The codes of the hexadecimal digits, in order (42 R69). -/
theorem digitCodes_getElem? : ∀ d : BitVec 4, digitCodes[d.toNat]? = some (hexDigit d) := by decide

theorem hexDigit_mem_digitCodes (d : BitVec 4) : hexDigit d ∈ digitCodes :=
  List.mem_of_getElem? (digitCodes_getElem? d)

/-- A character of a text belongs to byte `i / 3`: a space in every third lane, a digit elsewhere (42 R70, R71). -/
theorem hexText_char {s : List Byte} {i : Nat} {c : Byte} (h : (hexText s)[i]? = some c) :
    if i % 3 = 2 then c = 0x20 else c ∈ digitCodes := by
  have hi : i < 3 * s.length - 1 := hexText_length s ▸ (List.getElem?_eq_some_iff.mp h).1
  obtain ⟨hhigh, hlow, hspace⟩ := hexText_lanes (List.getElem?_eq_getElem (show i / 3 < s.length by omega))
  obtain hr | hr | hr : i % 3 = 0 ∨ i % 3 = 1 ∨ i % 3 = 2 := by omega
  · rw [show 3 * (i / 3) = i by omega, h, Option.some.injEq] at hhigh
    simp [hr, hhigh, hexDigit_mem_digitCodes]
  · rw [show 3 * (i / 3) + 1 = i by omega, h, Option.some.injEq] at hlow
    simp [hr, hlow, hexDigit_mem_digitCodes]
  · have hc := hspace (by omega)
    rw [show 3 * (i / 3) + 2 = i by omega, h, Option.some.injEq] at hc
    simp [hr, hc, space]

/-- The text of at most 8 bytes is legal (42 R68, R70, R71). -/
theorem legal_text_hexText {s : List Byte} (h : s.length ≤ 8) : (Response.text (hexText s)).Legal := by
  have hlen := hexText_length s
  refine ⟨?_, ?_, fun _ _ => hexText_char⟩
  · simp only [Config.txtLanes]
    omega
  · rw [← List.length_eq_zero_iff]
    omega

/-- Every operation's response is legal. -/
theorem legal_responseTo (i : Instr) : (responseTo i).Legal := by
  cases i with
  | enc val cap =>
    simp only [responseTo]
    split
    · trivial
    · exact legal_bytes_encBytes val
  | txt val => exact legal_text_hexText ((encBytes_length val).trans_le (lenOf_le val))
  | dec len buf | app val len buf | trn val len =>
    simp only [responseTo]
    split
    · trivial
    · exact legal_responseOf _

/-- A legal response keeps the invariant. -/
theorem State.inv_answer {s : State} {r : Response} (hs : s.Inv) (hr : r.Legal) : (s.answer r).Inv := by
  intro r' h
  rw [State.responses_answer, List.mem_append, List.mem_singleton] at h
  obtain h | rfl := h
  · exact hs r' h
  · exact hr

/-- Settles O33: a step that answers runs one operation, which adds one legal response. -/
theorem everyStepKeepsResponsesLegal : Obligations.EveryStepKeepsResponsesLegal := by
  intro s t hs hstep
  obtain ⟨r, rest, i, -, -, hexec⟩ := step_next_cases hstep
  rw [exec_eq, Host.Outcome.next.injEq] at hexec
  exact hexec ▸ State.inv_answer (s := ⟨rest, s.responses⟩) hs (legal_responseTo i)

/-- Settles O34: both lists are empty. -/
theorem resetHoldsNothing : Obligations.ResetHoldsNothing :=
  ⟨State.requests_reset, State.responses_reset, fun _ h => absurd h List.not_mem_nil⟩

end Sys2Proof.Machine
end

section
/-! The request format (30 §6): decoding and encoding agree, and a step runs the operation its first request selects. -/

namespace Sys2Proof.Machine

/-! ### Decoding and encoding -/

/-- A well-formed operation is read back from its ports (30 R50, R51). -/
theorem decode_encode {i : Instr} (h : i.wellFormed = true) : decode (encode i) = .ok i := by
  cases i with
  | enc val cap =>
    rw [decode_enc rfl]
    simp [encode, toNat_ofNat_of_lt (fitsCap_iff.mp h)]
  | dec len buf =>
    rw [decode_dec rfl]
    simp [encode, toNat_ofNat_of_lt (fitsLen_iff.mp h)]
  | txt val => exact decode_txt rfl
  | app val len buf =>
    rw [decode_app rfl]
    simp [encode, toNat_ofNat_of_lt (fitsLen_iff.mp h)]
  | trn val len =>
    rw [decode_trn rfl]
    simp [encode, toNat_ofNat_of_lt (fitsLen_iff.mp h)]

/-- A request that decodes gives a well-formed operation, whose ports carry the request's code and every field the operation
reads. -/
theorem encode_of_decode {r : Request} {i : Instr} (h : decode r = .ok i) :
    i.wellFormed = true ∧ (encode i).op = r.op ∧ (r.op ≠ 1 → (encode i).val = r.val) ∧
      (r.op = 0 → (encode i).cap = r.cap) ∧ (r.op = 1 ∨ r.op = 3 ∨ r.op = 4 → (encode i).len = r.len) ∧
      (r.op = 1 ∨ r.op = 3 → (encode i).buf = r.buf) := by
  have hlen := r.len.isLt
  have hcap := r.cap.isLt
  obtain ⟨hop, hd⟩ | ⟨hop, hd⟩ | ⟨hop, hd⟩ | ⟨hop, hd⟩ | ⟨hop, hd⟩ | ⟨-, hd⟩ := decode_cases r
  case inr.inr.inr.inr.inr => simp [hd] at h
  all_goals
    obtain rfl := Except.ok.inj (hd.symm.trans h)
    simp [Instr.wellFormed, encode, Request.ofOp, hop, hlen, hcap]

/-- A request decodes exactly when its code is one of the five (30 R50, R52). -/
theorem exists_decode_iff (r : Request) : (∃ i, decode r = .ok i) ↔ Accepted r := by
  obtain ⟨hop, hd⟩ | ⟨hop, hd⟩ | ⟨hop, hd⟩ | ⟨hop, hd⟩ | ⟨hop, hd⟩ | ⟨hop, hd⟩ := decode_cases r
  all_goals simp [hd, Accepted, hop]

/-- A reserved code is rejected by name (30 R52). -/
theorem decode_of_reserved {r : Request} (h : 5 ≤ r.op.toNat) : decode r = .error (.reservedOp r.op) := by
  obtain ⟨hop, -⟩ | ⟨hop, -⟩ | ⟨hop, -⟩ | ⟨hop, -⟩ | ⟨hop, -⟩ | ⟨-, hd⟩ := decode_cases r
  case inr.inr.inr.inr.inr => exact hd
  all_goals simp [hop] at h

/-- Settles O35: each operation code carries its fields unchanged in both directions. -/
theorem decodeAndEncodeAgree : Obligations.DecodeAndEncodeAgree :=
  ⟨fun _ => decode_encode, fun _ _ => encode_of_decode, exists_decode_iff⟩

/-- Settles O36: each written-out request decodes by the decoder's equation for its code. -/
theorem tableWordsDecodeToTheirOperations : Obligations.TableWordsDecodeToTheirOperations :=
  ⟨decode_enc rfl, decode_dec rfl, decode_txt rfl, decode_app rfl, decode_trn rfl, rfl⟩

/-! ### One step -/

/-- Settles O29: a step of a list with a first request is `exec` of its decode. -/
theorem stepRunsTheDecodedRequest : Obligations.StepRunsTheDecodedRequest := by
  rintro ⟨-, out⟩ r rest i rfl hd
  rw [step_cons, hd]

/-- A request with a reserved code is refused by name (30 R52). -/
theorem step_of_reserved {r : Request} (h : 5 ≤ r.op.toNat) (rest : List Request) (out : List Response) :
    step ⟨r :: rest, out⟩ = .refused (.reservedOp r.op) := by
  rw [step_cons, decode_of_reserved h]

/-- The response an accepted request gets; a reserved code gets none, and the value here is arbitrary. -/
def answerTo (r : Request) : Response :=
  match decode r with
  | .ok i => responseTo i
  | .error _ => .error .invalidEncoding

/-- An accepted request is served by its response alone (70 R106). -/
theorem step_of_accepted {r : Request} (h : Accepted r) (rest : List Request) (out : List Response) :
    step ⟨r :: rest, out⟩ = .next ⟨rest, out ++ [answerTo r]⟩ := by
  obtain ⟨i, hd⟩ := (exists_decode_iff r).mpr h
  rw [step_cons, hd, answerTo, hd]
  exact exec_eq i _

/-- Settles O30: a reserved code does not decode, and every other one does. -/
theorem stepRefusesExactlyTheReservedCodes : Obligations.StepRefusesExactlyTheReservedCodes :=
  fun _ rest out => ⟨fun h => step_of_reserved h rest out, fun h => ⟨_, step_of_accepted h rest out⟩⟩

/-! ### Runs -/

/-- A list of accepted requests is served in order, one response each (70 R106). -/
theorem runFor_append {rs : List Request} (h : ∀ r ∈ rs, Accepted r) (later : List Request) (out : List Response) :
    runFor rs.length ⟨rs ++ later, out⟩ = .next ⟨later, out ++ rs.map answerTo⟩ := by
  induction rs generalizing out with
  | nil => simp [runFor_zero]
  | cons r rs ih =>
    obtain ⟨hr, hrs⟩ := List.forall_mem_cons.mp h
    rw [List.length_cons, List.cons_append, runFor_succ_of_next _ (step_of_accepted hr _ _), ih hrs]
    simp

/-- A run that goes on has served as many accepted requests as it has steps. -/
theorem exists_append_of_runFor {n : Nat} {q : List Request} {out : List Response} {t : State}
    (h : runFor n ⟨q, out⟩ = .next t) : ∃ rs later, q = rs ++ later ∧ rs.length = n ∧ ∀ r ∈ rs, Accepted r := by
  induction n generalizing q out with
  | zero => exact ⟨[], q, rfl, rfl, by simp⟩
  | succ n ih =>
    obtain _ | ⟨r, q⟩ := q
    · simp [runFor_succ, step_nil] at h
    · have hr : Accepted r := by
        by_contra hr
        simp [runFor_succ, step_of_reserved (Nat.not_lt.mp hr)] at h
      rw [runFor_succ_of_next n (step_of_accepted hr q out)] at h
      obtain ⟨rs, later, rfl, rfl, hrs⟩ := ih h
      exact ⟨r :: rs, later, rfl, rfl, List.forall_mem_cons.mpr ⟨hr, hrs⟩⟩

/-- Settles O32: the stand-alone response is `answerTo`. -/
theorem everyRequestGetsItsStandAloneResponse : Obligations.EveryRequestGetsItsStandAloneResponse :=
  ⟨answerTo, fun _ h => step_of_accepted h [] [], fun _ later out h => runFor_append h later out⟩

/-- Settles O28: the run without the failing request serves accepted requests, whose responses do not depend on the earlier
ones. -/
theorem aFailingRequestDisturbsNoOther : Obligations.AFailingRequestDisturbsNoOther := by
  intro r rest out k hstep n rest' new hrun
  obtain ⟨rs, later, rfl, rfl, hrs⟩ := exists_append_of_runFor hrun
  rw [runFor_append hrs, Host.Outcome.next.injEq, State.mk.injEq, List.append_cancel_left_eq] at hrun
  obtain ⟨rfl, rfl⟩ := hrun
  rw [runFor_succ_of_next _ hstep, State.answer_mk, runFor_append hrs]
  simp

end Sys2Proof.Machine
end

section
/-! The bands as plain arithmetic (30 R38–R40), the capacity check of `ENC` (40 R56), and all that `DEC` can answer (41). -/

namespace Sys2Proof.Machine

/-! ### The bands -/

/-- The division in the formula of a band constant is exact (30 R38). -/
theorem mul_repunit (n : Nat) : 255 * ((256 ^ n - 1) / 255) = 256 ^ n - 1 := by
  induction n with
  | zero => rfl
  | succ n ih =>
    have hpos : 0 < 256 ^ n := by positivity
    rw [repunit_succ, pow_succ]
    omega

/-- `R(n+1) = 256·R(n) + 1` (30 R38). -/
theorem repunit_succ_eq_mul (n : Nat) : (256 ^ (n + 1) - 1) / 255 = 256 * ((256 ^ n - 1) / 255) + 1 := by
  have hpos : 0 < 256 ^ n := by positivity
  have hmul := mul_repunit n
  rw [repunit_succ]
  omega

/-- A band constant is `n` ones in base 256 (30 R38). -/
theorem digits_repunit (n : Nat) : Nat.digits 256 ((256 ^ n - 1) / 255) = List.replicate n 1 := by
  induction n with
  | zero => simp
  | succ n ih =>
    rw [repunit_succ_eq_mul, Nat.add_comm, Nat.digits_add 256 (by norm_num) 1 _ (by norm_num) (.inl one_ne_zero), ih,
      List.replicate_succ]

/-- Settles O1: the formula, its recurrences, and the table by evaluation. -/
theorem bandConstantsFollowTheFormula : Obligations.BandConstantsFollowTheFormula := by
  refine ⟨fun n hn => ?_, fun n hn => ?_, rfl⟩
  · rw [toNat_R hn]
    exact ⟨mul_repunit n, digits_repunit n⟩
  · rw [toNat_R hn.le, toNat_R hn]
    exact ⟨repunit_succ n, repunit_succ_eq_mul n⟩

/-- A value reaches `R(n)` exactly when it is at least `n` bytes long (30 R40). -/
theorem R_le_iff {n : Nat} (hn : n ≤ 8) (v : Word) : R n ≤ v ↔ n ≤ lenOf v := by
  constructor
  · intro h
    calc n = lenOf (R n) := (lenOf_R hn).symm
      _ ≤ lenOf v := lenOf_mono h
  · intro h
    rw [BitVec.le_def, toNat_R hn]
    exact (repunit_mono h).trans (R_lenOf_le v)

/-- Settles O2: the lookup finds the class, and a comparison with `R(n)` is a comparison of `n` with the length. -/
theorem bandLookupIsTheClassOfTheValue : Obligations.BandLookupIsTheClassOfTheValue := by
  refine ⟨fun v n => ⟨fun h => h ▸ inClass_lenOf v, lenOf_of_inClass⟩,
    fun v => ⟨(R_le_iff (lenOf_le v) v).mpr le_rfl, fun n hn => (R_le_iff hn v).mp⟩, fun v => ?_,
    fun v w => lenOf_mono⟩
  have hcount : ∀ k ≤ 8, k = ((List.range 8).filter fun i => decide (i + 1 ≤ k)).length := by decide
  rw [List.filter_congr fun i hi => decide_eq_decide.mpr (R_le_iff (List.mem_range.mp hi) v)]
  exact hcount _ (lenOf_le v)

/-! ### The capacity check of `ENC` -/

/-- Without room for the Encoding, `ENC` raises `BufferCapacityError` (40 R56). -/
theorem exec_enc_of_lt_lenOf {v : Word} {cap : Nat} (h : cap < lenOf v) (s : State) :
    exec (.enc v cap) s = .next (s.answer (.error .bufferCapacity)) := by
  rw [exec, execEnc_eq, if_pos h, deliver_eq]

/-- Settles O7: with room for it, the Encoding is delivered at every capacity alike. -/
theorem encShortCapacityWritesNothing : Obligations.EncShortCapacityWritesNothing := by
  intro v n cap s hv
  obtain rfl := lenOf_of_inClass hv
  have height := exec_enc_of_lenOf_le (lenOf_le v) s
  exact ⟨fun h => exec_enc_of_lt_lenOf h s, fun h => ⟨(exec_enc_of_lenOf_le h s).trans height.symm, _, height⟩⟩

/-! ### Decoding at most 8 bytes -/

/-- A sequence of at most 8 bytes decodes, unless it is a redundant one of 8 (30 R44, R46). -/
theorem decValue_ok_or_redundant {s : List Byte} (h : s.length ≤ 8) :
    (∃ w, decValue s = .ok w) ∨
      (s.length = 8 ∧ 0xFEFE_FEFE_FEFE_FEFF ≤ byteSum s ∧ decValue s = .error .redundant) := by
  obtain ⟨h8, -⟩ | ⟨h8, hwrap, herr⟩ | ⟨-, w, -, hok⟩ := decValue_cases s
  · omega
  · exact .inr ⟨h8, by omega, herr⟩
  · exact .inl ⟨w, hok⟩

/-- A sequence whose sum with its band constant passes 64 bits is redundant (30 R44). -/
theorem decValue_of_overflow {s : List Byte} (h : s.length ≤ 8)
    (hsum : 2 ^ 64 ≤ (256 ^ s.length - 1) / 255 + byteSum s) : decValue s = .error .redundant := by
  obtain ⟨w, hw⟩ | ⟨-, -, herr⟩ := decValue_ok_or_redundant h
  · have hlt := w.isLt
    rw [(decValue_ok_iff.mp hw).2] at hlt
    omega
  · exact herr

theorem readLanes_length_of_le {n : Nat} (h : n ≤ 8) (buf : Lanes) : (readLanes buf n).length = n :=
  (readLanes_length buf n).trans (Nat.min_eq_left h)

theorem laneSum_lt (buf : Lanes) {n : Nat} (h : n ≤ 8) : laneSum buf n < 256 ^ n := by
  simpa [laneSum_eq buf h, readLanes_length_of_le h] using byteSum_lt (readLanes buf n)

/-! ### All answers of `DEC` -/

/-- Up to 8 bytes `DEC` delivers the decode of the lanes below the count (41 R61). -/
theorem exec_dec_of_le {n : Nat} (h : n ≤ 8) (buf : Lanes) (s : State) :
    exec (.dec n buf) s = .next (s.answer (responseOf (decValue (readLanes buf n)))) := by
  rw [exec, execDec_eq, if_neg (Nat.not_lt.mpr h), deliver_eq]

/-- `DEC` answers `w` exactly when the length is at most 8 and the lanes hold the Encoding of `w` (41 R61). -/
theorem exec_dec_value_iff {n : Nat} {buf : Lanes} {w : Word} {s : State} :
    exec (.dec n buf) s = .next (s.answer (.value w)) ↔ n ≤ 8 ∧ encBytes w = readLanes buf n := by
  rw [exec, execDec_eq, deliver_eq, Host.Outcome.next.injEq, State.answer_inj, ite_error_responseOf_eq_value_iff,
    Nat.not_lt, decValue_ok_iff_encBytes]

/-- Eight lanes whose sum with `R(8)` stays in 64 bits decode to that number (41 R64). -/
theorem exec_dec_eight_of_toNat_eq {buf : Lanes} {t : Word} (ht : t.toNat = (R 8).toNat + laneSum buf 8) (s : State) :
    exec (.dec 8 buf) s = .next (s.answer (.value t)) := by
  refine exec_dec_of_decValue le_rfl (decValue_ok_iff.mpr ?_) s
  rw [readLanes_length_of_le le_rfl, ← laneSum_eq buf le_rfl, ← toNat_R le_rfl]
  exact ⟨le_rfl, ht⟩

/-- Eight lanes whose sum with `R(8)` passes 64 bits are an error (41 R64). -/
theorem exec_dec_eight_of_lt {buf : Lanes} (h : 0xFEFE_FEFE_FEFE_FEFE < laneSum buf 8) (s : State) :
    exec (.dec 8 buf) s = .next (s.answer (.error .invalidEncoding)) := by
  have hlen := readLanes_length_of_le le_rfl buf
  rw [laneSum_eq buf le_rfl] at h
  rw [exec_dec_of_le le_rfl, decValue_of_overflow hlen.le (by rw [hlen]; omega)]
  rfl

/-- Settles O13: the 64-bit sum is below `R(8)` exactly when the addition wraps. -/
theorem decEightBytesIsWrapChecked : Obligations.DecEightBytesIsWrapChecked := by
  intro buf s
  have hsum := laneSum_lt buf le_rfl
  have hR : (R 8).toNat = 0x0101_0101_0101_0101 := rfl
  have ht : (BitVec.ofNat 64 ((R 8).toNat + laneSum buf 8)).toNat = ((R 8).toNat + laneSum buf 8) % 2 ^ 64 :=
    BitVec.toNat_ofNat ..
  have hwrap : BitVec.ofNat 64 ((R 8).toNat + laneSum buf 8) < R 8 ↔ laneSum buf 8 > 0xFEFE_FEFE_FEFE_FEFE := by
    rw [BitVec.lt_def, ht]
    omega
  refine ⟨_, ht, hwrap, fun h => ?_, fun h => exec_dec_eight_of_lt (hwrap.mp h) s⟩
  rw [hwrap] at h
  have hexact := ht.trans (Nat.mod_eq_of_lt (by omega))
  exact ⟨exec_dec_eight_of_toNat_eq hexact s, hexact⟩

/-- The two classes of input `DEC` fails for: too many bytes, and a redundant pattern (30 R53). -/
theorem exec_dec_of_invalid {n : Nat} {buf : Lanes} (h : 8 < n ∨ (n = 8 ∧ 0xFEFE_FEFE_FEFE_FEFF ≤ laneSum buf 8))
    (s : State) : exec (.dec n buf) s = .next (s.answer (.error .invalidEncoding)) := by
  obtain h | ⟨rfl, h⟩ := h
  · exact exec_dec_of_eight_lt h buf s
  · exact exec_dec_eight_of_lt h s

/-- Outside the two classes `DEC` answers a value (30 R53). -/
theorem exists_exec_dec_value {n : Nat} {buf : Lanes}
    (h : ¬ (8 < n ∨ (n = 8 ∧ 0xFEFE_FEFE_FEFE_FEFF ≤ laneSum buf 8))) (s : State) :
    ∃ w, exec (.dec n buf) s = .next (s.answer (.value w)) := by
  have hn : n ≤ 8 := by omega
  have hlen := readLanes_length_of_le hn buf
  obtain ⟨w, hw⟩ | ⟨h8, hred, -⟩ := decValue_ok_or_redundant (hlen.trans_le hn)
  · exact ⟨w, exec_dec_of_decValue hn hw s⟩
  · obtain rfl := hlen.symm.trans h8
    rw [← laneSum_eq buf le_rfl] at hred
    exact absurd (.inr ⟨rfl, hred⟩) h

/-- Settles O14: the two classes fail and every other input answers a value, which is no error. -/
theorem decFailsForExactlyTwoClassesOfInput : Obligations.DecFailsForExactlyTwoClassesOfInput := by
  refine ⟨fun n buf s => ⟨⟨fun herr => ?_, fun h => exec_dec_of_invalid h s⟩, fun h => exists_exec_dec_value h s⟩, ?_,
    Tests.witness_dec_sums.2, fun buf => Nat.le_sub_one_of_lt (laneSum_lt buf le_rfl), ?_⟩
  · by_contra h
    obtain ⟨w, hw⟩ := exists_exec_dec_value h s
    rw [herr, Host.Outcome.next.injEq, State.answer_inj] at hw
    cases hw
  · rw [Nat.card_Icc]
    rfl
  · simp [laneSum, Finset.sum_range_succ]

/-- Settles O16: the lanes decoded are the Encoding of the answer, which `ENC` delivers. -/
theorem decThenEncGivesTheBytesBack : Obligations.DecThenEncGivesTheBytesBack := by
  intro n buf w s h
  obtain ⟨hn, hw⟩ := exec_dec_value_iff.mp h
  exact ⟨exec_enc_eight_iff.mpr (decValue_ok_iff_encBytes.mpr hw), readLanes_length_of_le hn buf⟩

/-- Settles O17: a decode at length `m` answers a value of class `m`, and the classes are disjoint; this is so whatever
the lanes hold. -/
theorem wrongLengthGivesAnotherValue : Obligations.WrongLengthGivesAnotherValue := by
  intro v n m buf s hv _ hm hne
  have hlen := readLanes_length_of_le hm buf
  obtain ⟨w, hw⟩ | ⟨h8, -, herr⟩ := decValue_ok_or_redundant (hlen.trans_le hm)
  · have hclass : InClass w m := hlen ▸ inClass_of_decValue hw
    refine .inl ⟨w, exec_dec_of_decValue hm hw s, hclass, ?_⟩
    rintro rfl
    exact hne ((lenOf_of_inClass hclass).symm.trans (lenOf_of_inClass hv))
  · refine .inr ⟨hlen.symm.trans h8, ?_⟩
    rw [exec_dec_of_le hm, herr]
    rfl

end Sys2Proof.Machine
end

section
/-! `TXT` (42): the text spells the digits of the Encoding, and different values have different texts. -/

namespace Sys2Proof.Machine

/-! ### The two digits of a byte -/

theorem toNat_highNibble (b : Byte) : (b.extractLsb' 4 4).toNat = b.toNat / 16 := by
  have := b.isLt
  rw [BitVec.extractLsb'_toNat, Nat.shiftRight_eq_div_pow]
  omega

theorem toNat_lowNibble (b : Byte) : (b.extractLsb' 0 4).toNat = b.toNat % 16 := by
  simp [BitVec.extractLsb'_toNat]

/-- Different digits have different codes (42 R69). -/
theorem hexDigit_injective : Function.Injective hexDigit := by decide

/-- The two digits of a byte determine it (42 R70). -/
theorem byte_eq_of_hexDigits {a b : Byte} (hhigh : hexDigit (a.extractLsb' 4 4) = hexDigit (b.extractLsb' 4 4))
    (hlow : hexDigit (a.extractLsb' 0 4) = hexDigit (b.extractLsb' 0 4)) : a = b := by
  have h1 := congrArg BitVec.toNat (hexDigit_injective hhigh)
  have h2 := congrArg BitVec.toNat (hexDigit_injective hlow)
  rw [toNat_highNibble, toNat_highNibble] at h1
  rw [toNat_lowNibble, toNat_lowNibble] at h2
  exact BitVec.eq_of_toNat_eq (by omega)

/-! ### The text of a value -/

/-- Byte `i` of the Encoding is digit `i` of the stored value (30 R42). -/
theorem encBytes_getElem? {v : Word} {i : Nat} (h : i < lenOf v) : (encBytes v)[i]? = some (byteAt (stored v) i) := by
  simp [encBytes, h]

/-- Settles O18: byte `i` of the Encoding stands at lanes `3i` and `3i + 1` as the codes of its two digits. -/
theorem txtLaysOutTheHexDigits : Obligations.TxtLaysOutTheHexDigits := by
  intro v n s hv
  obtain rfl := lenOf_of_inClass hv
  refine ⟨_, exec_eq _ s, ?_, fun i hi => ?_⟩
  · rw [hexText_length, encBytes_length]
    split <;> omega
  · obtain ⟨hhigh, hlow, hspace⟩ := hexText_lanes (encBytes_getElem? hi)
    rw [encBytes_length] at hspace
    rw [← stored_toNat, ← toNat_byteAt, ← toNat_highNibble, ← toNat_lowNibble, digitCodes_getElem?, digitCodes_getElem?]
    exact ⟨hhigh, hlow, hspace⟩

/-- The text determines the bytes (42 R72). -/
theorem hexText_injective : Function.Injective hexText := by
  intro s t h
  have hlen : s.length = t.length := by
    have := congrArg List.length h
    rw [hexText_length, hexText_length] at this
    omega
  refine List.ext_getElem hlen fun i hs ht => ?_
  obtain ⟨hhigh, hlow, -⟩ := hexText_lanes (List.getElem?_eq_getElem hs)
  obtain ⟨hhigh', hlow', -⟩ := hexText_lanes (List.getElem?_eq_getElem ht)
  rw [h, hhigh', Option.some.injEq] at hhigh
  rw [h, hlow', Option.some.injEq] at hlow
  exact (byte_eq_of_hexDigits hhigh hlow).symm

/-- Different values have different Encodings (30 R45 (a)). -/
theorem encBytes_injective : Function.Injective encBytes := fun v w h =>
  Except.ok.inj ((decValue_encBytes v).symm.trans (h ▸ decValue_encBytes w))

/-- Settles O19: equal answers are equal texts, of equal Encodings, of equal values. -/
theorem txtIsInjective : Obligations.TxtIsInjective := by
  intro v w s h
  rw [exec_eq, exec_eq, Host.Outcome.next.injEq, State.answer_inj] at h
  exact encBytes_injective (hexText_injective (Response.text.inj h))

end Sys2Proof.Machine
end

section
/-! `APP` and `TRN` (43): each is a decode of the edited bytes, with the closed forms the spec derives. -/

namespace Sys2Proof.Machine

/-- A step on an `APP` request (30 R50). -/
theorem step_app {r : Request} (h : r.op = 3) (rest : List Request) (out : List Response) :
    step ⟨r :: rest, out⟩ = exec (.app r.val r.len.toNat r.buf) ⟨rest, out⟩ := by
  rw [step_cons, decode_app h]

/-- A step on a `TRN` request (30 R50). -/
theorem step_trn {r : Request} (h : r.op = 4) (rest : List Request) (out : List Response) :
    step ⟨r :: rest, out⟩ = exec (.trn r.val r.len.toNat) ⟨rest, out⟩ := by
  rw [step_cons, decode_trn h]

/-! ### `APP` -/

/-- Past 8 bytes `APP` is an error, whatever the lanes hold (43 R74). -/
theorem exec_app_of_lt {v : Word} {k : Nat} (h : 8 < lenOf v + k) (buf : Lanes) (s : State) :
    exec (.app v k buf) s = .next (s.answer (.error .invalidEncoding)) := by
  rw [exec, execApp_eq, if_pos h, deliver_eq]

/-- Up to 8 bytes `APP` delivers the decode of the concatenation (43 R73). -/
theorem exec_app_of_le {v : Word} {k : Nat} (h : lenOf v + k ≤ 8) (buf : Lanes) (s : State) :
    exec (.app v k buf) s = .next (s.answer (responseOf (decValue (encBytes v ++ readLanes buf k)))) := by
  rw [exec, execApp_eq, if_neg (Nat.not_lt.mpr h), deliver_eq]

/-- `APP` is the `DEC` of lanes that hold the concatenation (43 R73). -/
theorem exec_app_eq_exec_dec {v : Word} {k : Nat} {buf lanes : Lanes} (h : lenOf v + k ≤ 8)
    (hlanes : readLanes lanes (lenOf v + k) = encBytes v ++ readLanes buf k) (s : State) :
    exec (.app v k buf) s = exec (.dec (lenOf v + k) lanes) s := by
  rw [exec_app_of_le h, exec_dec_of_le h, hlanes]

theorem concat_length {v : Word} {k : Nat} (h : lenOf v + k ≤ 8) (buf : Lanes) :
    (encBytes v ++ readLanes buf k).length = lenOf v + k := by
  rw [List.length_append, encBytes_length, readLanes_length_of_le (by omega)]

/-- Appending nothing gives the value back (43 R73). -/
theorem exec_app_no_bytes (v : Word) (buf : Lanes) (s : State) :
    exec (.app v 0 buf) s = .next (s.answer (.value v)) :=
  exec_app_value_iff.mpr ⟨lenOf_le v, (List.append_nil _).symm⟩

/-- Appending to 0, whose Encoding is empty, is `DEC` (43 R73). -/
theorem exec_app_zero (k : Nat) (buf : Lanes) (s : State) : exec (.app 0 k buf) s = exec (.dec k buf) s := by
  have hlen : lenOf 0 = 0 := rfl
  have hbytes : encBytes 0 = [] := rfl
  rw [exec_eq, exec_eq, responseTo, responseTo, hlen, hbytes, Nat.zero_add, List.nil_append]

/-- Settles O20: `APP` decodes the concatenation, of length `L + k`. -/
theorem appDecodesTheConcatenation : Obligations.AppDecodesTheConcatenation := by
  intro r d rest out hop
  refine ⟨fun h buf => ?_, fun h => ⟨fun hd hlen hbuf => ?_, ?_⟩, fun hlen => ?_, fun hval => ?_⟩
  · exact (step_app (r := { r with buf := buf }) hop rest out).trans (exec_app_of_lt h buf _)
  · rw [step_app hop, step_dec hd, hlen]
    exact exec_app_eq_exec_dec h (hlen ▸ hbuf) _
  · rw [step_app hop, exec_app_of_le h]
    have hcat := concat_length h r.buf
    obtain ⟨w, hw⟩ | ⟨h8, -, herr⟩ := decValue_ok_or_redundant (hcat.trans_le h)
    · exact .inl ⟨w, hw, by rw [hw, responseOf]⟩
    · exact .inr ⟨hcat.symm.trans h8, herr, by rw [herr]; rfl⟩
  · rw [step_app hop, hlen]
    exact exec_app_no_bytes r.val r.buf _
  · rw [step_app hop, step_dec (r := { r with op := 1 }) rfl, hval]
    exact exec_app_zero _ _ _

/-- Settles O21: the bytes of the concatenation spell the stored value of `v` plus the lanes weighted by `256^n`. -/
theorem appClosedForm : Obligations.AppClosedForm := by
  intro v n k buf s hv hk x
  obtain rfl := lenOf_of_inClass hv
  have hcat := concat_length hk buf
  have hsum : x = (256 ^ (lenOf v + k) - 1) / 255 + byteSum (encBytes v ++ readLanes buf k) := by
    rw [byteSum_append, byteSum_encBytes, stored_toNat, encBytes_length, ← laneSum_eq buf (by omega), ← Nat.add_assoc]
  refine ⟨fun h7 => ?_, fun hx => ?_, fun hx => ?_⟩
  · rw [hsum]
    exact repunit_add_lt h7 (hcat ▸ byteSum_lt _)
  · have hw : decValue (encBytes v ++ readLanes buf k) = .ok (BitVec.ofNat 64 x) := by
      rw [decValue_ok_iff, BitVec.toNat_ofNat, Nat.mod_eq_of_lt hx, hcat]
      exact ⟨hk, hsum⟩
    exact ⟨hcat ▸ inClass_of_decValue hw, exec_app_value_iff.mpr ⟨hk, encBytes_of_decValue hw⟩⟩
  · rw [exec_app_of_le hk, decValue_of_overflow (hcat.trans_le hk) (by rwa [hcat, ← hsum])]
    rfl

/-! ### `TRN` -/

/-- Removing more bytes than there are is an error (43 R79). -/
theorem exec_trn_of_lt {v : Word} {c : Nat} (h : lenOf v < c) (s : State) :
    exec (.trn v c) s = .next (s.answer (.error .invalidEncoding)) := by
  rw [exec, execTrn_eq, if_pos h, deliver_eq]

/-- Removing at most all the bytes, `TRN` delivers the decode of the others (43 R78). -/
theorem exec_trn_of_le {v : Word} {c : Nat} (h : c ≤ lenOf v) (s : State) :
    exec (.trn v c) s = .next (s.answer (responseOf (decValue ((encBytes v).take (lenOf v - c))))) := by
  rw [exec, execTrn_eq, if_neg (Nat.not_lt.mpr h), deliver_eq]

/-- Settles O22: the two length checks come before the decode. -/
theorem appAndTrnLengthErrors : Obligations.AppAndTrnLengthErrors := by
  intro v n k buf s hv
  obtain rfl := lenOf_of_inClass hv
  exact ⟨fun h => exec_app_of_lt h buf s, fun h => exec_trn_of_lt h s⟩

/-- The first bytes of an Encoding decode: all of them to the value, and fewer than 8 always (43 R80). -/
theorem exists_decValue_take_encBytes (v : Word) (m : Nat) : ∃ w, decValue ((encBytes v).take m) = .ok w := by
  rcases Nat.lt_or_ge m (lenOf v) with h | h
  · refine decValue_total ?_
    have := lenOf_le v
    rw [List.length_take, encBytes_length]
    omega
  · rw [List.take_of_length_le ((encBytes_length v).trans_le h)]
    exact ⟨v, decValue_encBytes v⟩

/-- `TRN` answers the value the first bytes of the Encoding decode to (43 R78). -/
theorem exists_exec_trn_value {v : Word} {c : Nat} (h : c ≤ lenOf v) :
    ∃ w, decValue ((encBytes v).take (lenOf v - c)) = .ok w ∧
      ∀ s, exec (.trn v c) s = .next (s.answer (.value w)) := by
  obtain ⟨w, hw⟩ := exists_decValue_take_encBytes v (lenOf v - c)
  exact ⟨w, hw, fun s => exec_trn_value_iff.mpr ⟨h, encBytes_of_decValue hw⟩⟩

/-- `TRN` is the `DEC` of lanes that hold the remainder (43 R78). -/
theorem exec_trn_eq_exec_dec {v : Word} {c : Nat} {lanes : Lanes} (h : c ≤ lenOf v)
    (hlanes : readLanes lanes (lenOf v - c) = (encBytes v).take (lenOf v - c)) (s : State) :
    exec (.trn v c) s = exec (.dec (lenOf v - c) lanes) s := by
  have hv := lenOf_le v
  rw [exec_trn_of_le h, exec_dec_of_le (by omega), hlanes]

/-- `TRN` raises its error exactly when there are not bytes enough (43 R79). -/
theorem exec_trn_error_iff {v : Word} {c : Nat} {s : State} :
    exec (.trn v c) s = .next (s.answer (.error .invalidEncoding)) ↔ lenOf v < c := by
  refine ⟨fun herr => ?_, fun h => exec_trn_of_lt h s⟩
  by_contra h
  obtain ⟨w, -, hw⟩ := exists_exec_trn_value (Nat.not_lt.mp h)
  rw [hw, Host.Outcome.next.injEq, State.answer_inj] at herr
  cases herr

/-- Removing nothing gives the value back (43 R78). -/
theorem exec_trn_no_bytes (v : Word) (s : State) : exec (.trn v 0) s = .next (s.answer (.value v)) :=
  exec_trn_value_iff.mpr ⟨Nat.zero_le _, (List.take_of_length_le (encBytes_length v).le).symm⟩

/-- Removing every byte gives 0 (43 R78). -/
theorem exec_trn_all_bytes (v : Word) (s : State) : exec (.trn v (lenOf v)) s = .next (s.answer (.value 0)) := by
  refine exec_trn_value_iff.mpr ⟨le_rfl, ?_⟩
  rw [Nat.sub_self]
  rfl

/-- Settles O23: `TRN` decodes the remainder, which always decodes. -/
theorem trnDecodesTheRemainder : Obligations.TrnDecodesTheRemainder := by
  intro r d rest out hop
  rw [step_trn hop]
  refine ⟨exec_trn_error_iff, fun h => ⟨?_, fun hd hlen hbuf => ?_⟩, fun hlen => ?_, fun hlen => ?_, fun hval hlen => ?_⟩
  · obtain ⟨w, hw, hexec⟩ := exists_exec_trn_value h
    exact ⟨w, hw, hexec _⟩
  · rw [step_dec hd, hlen]
    exact exec_trn_eq_exec_dec h (hlen ▸ hbuf) _
  · rw [hlen]
    exact exec_trn_no_bytes r.val _
  · rw [hlen]
    exact exec_trn_all_bytes r.val _
  · refine exec_trn_of_lt ?_ _
    rw [hval]
    exact Nat.pos_of_ne_zero fun h => hlen (BitVec.eq_of_toNat_eq h)

/-- The first `m` bytes spell the sum modulo `256^m` (20 R28). -/
theorem byteSum_take {s : List Byte} {m : Nat} (h : m ≤ s.length) : byteSum (s.take m) = byteSum s % 256 ^ m := by
  have hlen : (s.take m).length = m := List.length_take_of_le h
  have hlt := byteSum_lt (s.take m)
  rw [hlen] at hlt
  calc byteSum (s.take m) = (byteSum (s.take m) + 256 ^ m * byteSum (s.drop m)) % 256 ^ m := by
        rw [Nat.add_mul_mod_self_left, Nat.mod_eq_of_lt hlt]
    _ = byteSum s % 256 ^ m := by
        rw [← congrArg byteSum (List.take_append_drop m s), byteSum_append, hlen]

/-- Settles O24: the remainder has `n - c` bytes, which spell the stored value modulo `256^(n-c)`. -/
theorem trnClosedForm : Obligations.TrnClosedForm := by
  intro v n c s hv hc
  obtain rfl := lenOf_of_inClass hv
  obtain ⟨w, hw, hexec⟩ := exists_exec_trn_value hc
  have hle : lenOf v - c ≤ (encBytes v).length := (Nat.sub_le _ _).trans (encBytes_length v).ge
  have hlen : ((encBytes v).take (lenOf v - c)).length = lenOf v - c := List.length_take_of_le hle
  refine ⟨w, ?_, hlen ▸ inClass_of_decValue hw, hexec s⟩
  rw [(decValue_ok_iff.mp hw).2, hlen, byteSum_take hle, byteSum_encBytes, stored_toNat]

end Sys2Proof.Machine
end

section
/-! The response side (10 §3): which fields of a response are valid, and that a response depends on the fields its operation
reads alone. -/

namespace Sys2Proof.Machine

/-! ### Valid fields -/

theorem status_ne_three (r : Response) : r.status ≠ 3 := by
  cases r with
  | bytes | value | text => simp [Response.status]
  | error k => cases k <;> simp [Response.status, ErrorKind.status]

/-- A status other than `OK` is that of an error (60 R85). -/
theorem exists_eq_error_of_status_ne_zero {r : Response} (h : r.status ≠ 0) : ∃ k, r = .error k := by
  cases r with
  | bytes | value | text => exact absurd rfl h
  | error k => exact ⟨k, rfl⟩

/-- A decode behind a length check answers a value or `InvalidEncodingError`, never the capacity error. -/
theorem ite_responseOf_decValue_cases (p : Prop) [Decidable p] (b : List Byte) :
    let r := if p then .error .invalidEncoding else responseOf (decValue b)
    (∃ w, r = .value w) ∨ r = .error .invalidEncoding := by
  split
  · exact .inr rfl
  · obtain ⟨-, herr⟩ | ⟨-, -, herr⟩ | ⟨-, w, -, hok⟩ := decValue_cases b
    · exact .inr (by rw [herr]; rfl)
    · exact .inr (by rw [herr]; rfl)
    · exact .inl ⟨w, by rw [hok, responseOf]⟩

/-- The valid fields of a decoding operation's response (10 R22). -/
theorem fields_of_value_or_error {r : Response} (h : (∃ w, r = .value w) ∨ r = .error .invalidEncoding) :
    r.status ≠ 1 ∧ (r.status = 0 → r.rval.isSome = true ∧ r.rlen = none ∧ r.rtlen = none ∧
      ∀ j, r.rbuf j = none ∧ r.rtxt j = none) := by
  obtain ⟨w, rfl⟩ | rfl := h
  · exact ⟨by simp [Response.status], fun _ => ⟨rfl, rfl, rfl, fun _ => ⟨rfl, rfl⟩⟩⟩
  · simp [Response.status, ErrorKind.status]

/-- The valid fields of an `ENC` response: the count and that many lanes, or none (10 R22). -/
theorem fields_of_enc (v : Word) (cap : Nat) :
    let r := responseTo (.enc v cap)
    r.status ≠ 2 ∧ (r.status = 0 → r.rlen = some (lenOf v) ∧ r.rval = none ∧ r.rtlen = none ∧
      ∀ j, ((r.rbuf j).isSome = true ↔ j < lenOf v) ∧ r.rtxt j = none) := by
  rw [responseTo]
  split
  · simp [Response.status, ErrorKind.status]
  · simp [Response.status, Response.rlen, Response.rval, Response.rtlen, Response.rbuf, Response.rtxt]

/-- The valid fields of a `TXT` response: the count and that many characters (10 R22). -/
theorem fields_of_txt (v : Word) :
    let r := responseTo (.txt v)
    r.status = 0 ∧ r.rtlen = some (3 * lenOf v - 1) ∧ r.rval = none ∧ r.rlen = none ∧
      ∀ j, ((r.rtxt j).isSome = true ↔ j < 3 * lenOf v - 1) ∧ r.rbuf j = none := by
  simp [responseTo, hexText_length, Response.status, Response.rlen, Response.rval, Response.rtlen, Response.rbuf,
    Response.rtxt]

/-- Settles O26: the response is `responseTo` of the operation, whose fields are known for each operation. -/
theorem responsesCarryExactlyTheirValidFields : Obligations.ResponsesCarryExactlyTheirValidFields := by
  intro i s t h
  rw [exec_eq, Host.Outcome.next.injEq] at h
  obtain rfl := h
  refine ⟨responseTo i, rfl, status_ne_three _, fun herr => ?_, ?_⟩
  · obtain ⟨k, hk⟩ := exists_eq_error_of_status_ne_zero herr
    rw [hk]
    exact ⟨rfl, rfl, rfl, fun _ => ⟨rfl, rfl⟩⟩
  · cases i with
    | enc v cap => exact fields_of_enc v cap
    | txt v => exact fields_of_txt v
    | dec len buf | app v len buf | trn v len => exact fields_of_value_or_error (ite_responseOf_decValue_cases _ _)

/-! ### Ignored fields -/

/-- `DEC` reads the lanes below its count, and none for a count above 8 (41 R63, R66). -/
theorem responseTo_dec_congr {n : Nat} {a b : Lanes} (h : n ≤ 8 → readLanes a n = readLanes b n) :
    responseTo (.dec n a) = responseTo (.dec n b) := by
  rw [responseTo, responseTo]
  split
  · rfl
  · rw [h (by omega)]

/-- `APP` reads the lanes below its count, and none when the bytes do not fit (43 R73, R74). -/
theorem responseTo_app_congr {v : Word} {k : Nat} {a b : Lanes}
    (h : lenOf v + k ≤ 8 → readLanes a k = readLanes b k) : responseTo (.app v k a) = responseTo (.app v k b) := by
  rw [responseTo, responseTo]
  split
  · rfl
  · rw [h (by omega)]

/-- The response to a request is that of the operation it decodes to. -/
theorem answerTo_of_decode {r : Request} {i : Instr} (h : decode r = .ok i) : answerTo r = responseTo i := by
  rw [answerTo, h]

/-- Settles O27: requests that agree on what the operation reads decode to operations with one response. -/
theorem ignoredFieldsDoNotMatter : Obligations.IgnoredFieldsDoNotMatter := by
  intro a b rest out hop ha henc hdec htxt happ htrn
  have hb : Accepted b := by rwa [Accepted, ← hop]
  suffices h : answerTo a = answerTo b from ⟨_, step_of_accepted ha rest out, h ▸ step_of_accepted hb rest out⟩
  obtain ⟨h, hd⟩ | ⟨h, hd⟩ | ⟨h, hd⟩ | ⟨h, hd⟩ | ⟨h, hd⟩ | ⟨h, -⟩ := decode_cases a
  · obtain ⟨hval, hcap⟩ := henc h
    rw [answerTo_of_decode hd, answerTo_of_decode (decode_enc (hop ▸ h)), hval, hcap]
  · obtain ⟨hlen, hbuf⟩ := hdec h
    rw [answerTo_of_decode hd, answerTo_of_decode (decode_dec (hop ▸ h)), ← hlen]
    exact responseTo_dec_congr hbuf
  · rw [answerTo_of_decode hd, answerTo_of_decode (decode_txt (hop ▸ h)), htxt h]
  · obtain ⟨hval, hlen, hbuf⟩ := happ h
    rw [answerTo_of_decode hd, answerTo_of_decode (decode_app (hop ▸ h)), ← hval, ← hlen]
    exact responseTo_app_congr hbuf
  · obtain ⟨hval, hlen⟩ := htrn h
    rw [answerTo_of_decode hd, answerTo_of_decode (decode_trn (hop ▸ h)), hval, hlen]
  · exact absurd ha (Nat.not_lt.mpr h)

end Sys2Proof.Machine
end
